-- ==== Sys2Proof/Word.lean ====
section
/-! DEFINITION. The word types of CRC8-PF (spec/00_scope.md R11, R12; spec/30_encoding.md R60, R62). -/

namespace Sys2Proof

/-- A byte, 0..255: the width of ACC, ERR, a table entry and a packet byte (R11, R12). -/
abbrev Byte := BitVec 8

/-- A 32-bit value: the operand field `imm` and the timestamp (R11, R60). -/
abbrev Word32 := BitVec 32

/-- A 40-bit command word CMD (R60). -/
abbrev CmdWord := BitVec 40

/-- A 16-bit response word RSP (R62). -/
abbrev RspWord := BitVec 16

/-- An address of the PKT space, 6 bits (spec/20_memory.md R40). -/
abbrev Offset := BitVec 6

end Sys2Proof
end

