-- ==== Sys2Proof/Machine/Errors.lean ====
section
/-! DEFINITION. The four errors of the command interface and their codes (spec/60_exceptions.md R150). -/

namespace Sys2Proof

/-- The block's synchronous errors (R150).  Each is a completed command with an error response,
not a stop of the machine (R152). -/
inductive ErrCode where
  /-- E_ILLOP: the opcode is reserved (R66). -/
  | illop
  /-- E_RSVD: a defined opcode with a reserved operand bit set (R67). -/
  | rsvd
  /-- E_RANGE: HOUR12 with hour > 23 (R121). -/
  | range
  /-- E_NOPKT: PKTRD while PKTV = 0 (R106). -/
  | nopkt
  deriving DecidableEq, Repr

/-- The code an error puts in the response and, first error only, in ERR (R150). -/
def ErrCode.code : ErrCode → Byte
  | .illop => 0x01#8
  | .rsvd => 0x02#8
  | .range => 0x03#8
  | .nopkt => 0x04#8

end Sys2Proof
end

