-- ==== Sys2Proof/Machine/Operands.lean ====
section
/-! DEFINITION. The fields of a command word, the assembly of command and response words, and the byte
order of the timestamp (spec/30_encoding.md R60 to R63, spec/20_memory.md R44). -/

namespace Sys2Proof

/-- `op = CMD[39:32]` (R60). -/
def opField (w : CmdWord) : Byte := w.extractLsb' 32 8

/-- `imm = CMD[31:0]` (R60). -/
def immField (w : CmdWord) : Word32 := w.extractLsb' 0 32

/-- The command word with opcode `op` and operand field `imm` (R60). -/
def cmdWord (op : Byte) (imm : Word32) : CmdWord := op ++ imm

/-- `imm[7:0]`: the operand `init` of CRCINIT, `byte` of CRCUPD, `hour` of HOUR12 (R61). -/
def byteOperand (imm : Word32) : Byte := imm.extractLsb' 0 8

/-- `imm[5:0]`: the operand `off` of PKTRD (R61). -/
def offsetOperand (imm : Word32) : Offset := imm.extractLsb' 0 6

/-- `imm[8]`: the operand `use12` of HOUR12 (R61). -/
def use12Operand (imm : Word32) : Bool := imm.getLsbD 8

/-- `RSP = {status, data}` (R62). -/
def rspWord (status data : Byte) : RspWord := status ++ data

/-- The response of a command that completed: status 0x00 (R62). -/
def okRsp (data : Byte) : RspWord := rspWord 0x00#8 data

/-- The four bytes of a timestamp, most significant first (R44). -/
def stampBytes (ts : Word32) : List Byte :=
  [ts.extractLsb' 24 8, ts.extractLsb' 16 8, ts.extractLsb' 8 8, ts.extractLsb' 0 8]

end Sys2Proof
end

