-- ==== Sys2Proof/Syntax.lean ====
section
/-! DEFINITION. The ten commands, one constructor per row of spec/opcode_table.json
(spec/30_encoding.md R61, R63, R64). -/

namespace Sys2Proof

/-- A command with its operand fields, each of the width R61 gives it. -/
inductive Instr where
  /-- NOP (R140). -/
  | nop
  /-- CRCINIT init (R84). -/
  | crcinit (init : Byte)
  /-- CRCUPD byte (R85). -/
  | crcupd (byte : Byte)
  /-- CRCRD (R86). -/
  | crcrd
  /-- PKTBUILD ts (R104). -/
  | pktbuild (ts : Word32)
  /-- PKTRD off (R106). -/
  | pktrd (off : Offset)
  /-- HOUR12 use12, hour (R121): `hour` is the whole 8-bit field, of which only 0..23 is legal (R63). -/
  | hour12 (use12 : Bool) (hour : Byte)
  /-- STAT (R141). -/
  | stat
  /-- ERRRD (R142). -/
  | errrd
  /-- ERRCLR (R143). -/
  | errclr
  deriving DecidableEq, Repr

end Sys2Proof
end

