-- ==== Sys2Proof/Decode.lean ====
section
/-! DEFINITION. The opcode table, the decoder (total on all 2^40 words) and the encoder
(spec/30_encoding.md R60, R61, R64, R65, R70). -/

namespace Sys2Proof

/-- One row of the opcode map: R61's opcode, reserved bits and operand sub-fields, and R64's match and mask. -/
structure OpcodeRow where
  mnemonic : String
  op : Byte
  /-- The bits of `imm` that must be 0 (R61). -/
  reserved : Word32
  /-- R64's "match" over the 40-bit word. -/
  pattern : CmdWord
  /-- R64's "mask" over the 40-bit word. -/
  mask : CmdWord
  /-- The command with its operands taken from `imm` (R61, R63). -/
  build : Word32 → Instr

/-- R61 and R64, row by row. -/
def opcodeRows : List OpcodeRow :=
  [ ⟨"NOP", 0x00#8, 0xFFFFFFFF#32, 0x0000000000#40, 0xFFFFFFFFFF#40, fun _ => .nop⟩,
    ⟨"CRCINIT", 0x01#8, 0xFFFFFF00#32, 0x0100000000#40, 0xFFFFFFFF00#40, fun imm => .crcinit (byteOperand imm)⟩,
    ⟨"CRCUPD", 0x02#8, 0xFFFFFF00#32, 0x0200000000#40, 0xFFFFFFFF00#40, fun imm => .crcupd (byteOperand imm)⟩,
    ⟨"CRCRD", 0x03#8, 0xFFFFFFFF#32, 0x0300000000#40, 0xFFFFFFFFFF#40, fun _ => .crcrd⟩,
    ⟨"PKTBUILD", 0x10#8, 0x00000000#32, 0x1000000000#40, 0xFF00000000#40, fun imm => .pktbuild imm⟩,
    ⟨"PKTRD", 0x11#8, 0xFFFFFFC0#32, 0x1100000000#40, 0xFFFFFFFFC0#40, fun imm => .pktrd (offsetOperand imm)⟩,
    ⟨"HOUR12", 0x20#8, 0xFFFFFE00#32, 0x2000000000#40, 0xFFFFFFFE00#40,
      fun imm => .hour12 (use12Operand imm) (byteOperand imm)⟩,
    ⟨"STAT", 0x30#8, 0xFFFFFFFF#32, 0x3000000000#40, 0xFFFFFFFFFF#40, fun _ => .stat⟩,
    ⟨"ERRRD", 0x31#8, 0xFFFFFFFF#32, 0x3100000000#40, 0xFFFFFFFFFF#40, fun _ => .errrd⟩,
    ⟨"ERRCLR", 0x32#8, 0xFFFFFFFF#32, 0x3200000000#40, 0xFFFFFFFFFF#40, fun _ => .errclr⟩ ]

/-- Steps 1 to 3 of R65: the opcode is looked up first (E_ILLOP), then the reserved bits of `imm` are
examined (E_RSVD).  Steps 4 and 5 (E_RANGE, E_NOPKT) belong to the meanings of HOUR12 and PKTRD. -/
def decode (w : CmdWord) : Except ErrCode Instr :=
  match opcodeRows.find? (fun row => row.op == opField w) with
  | none => .error .illop
  | some row =>
    if immField w &&& row.reserved = 0#32 then .ok (row.build (immField w)) else .error .rsvd

/-- The command word of a command, from R70's column "encodes". -/
def encode : Instr → CmdWord
  | .nop => cmdWord 0x00#8 0#32
  | .crcinit init => cmdWord 0x01#8 (init.setWidth 32)
  | .crcupd byte => cmdWord 0x02#8 (byte.setWidth 32)
  | .crcrd => cmdWord 0x03#8 0#32
  | .pktbuild ts => cmdWord 0x10#8 ts
  | .pktrd off => cmdWord 0x11#8 (off.setWidth 32)
  | .hour12 use12 hour => cmdWord 0x20#8 (((BitVec.ofBool use12) ++ hour).setWidth 32)
  | .stat => cmdWord 0x30#8 0#32
  | .errrd => cmdWord 0x31#8 0#32
  | .errclr => cmdWord 0x32#8 0#32

/-- The command word whose low `nbits` bits are those of `w`, the bits above being 0.  The opcode table
numbers a command's bits as the one 40-bit word CMD, bit 0 the least significant (R12, R60). -/
def tableWord (nbits w : Nat) : CmdWord := BitVec.ofNat 40 (w % 2 ^ nbits)

/-- The command the decoder reads from a row's word; none where it raises an error, or where the row is
longer than the one 40-bit format (R60). -/
def decodeTableWord (nbits w : Nat) : Option Instr :=
  if nbits ≤ 40 then (decode (tableWord nbits w)).toOption else none

end Sys2Proof
end

