-- ==== Sys2Proof/Config.lean ====
section
/-! DEFINITION. The one open parameter of the block, CRC_TABLE (spec/00_scope.md R10,
spec/92_eei_decisions.md D1). -/

namespace Sys2Proof

/-- The type of the checksum table: total on 0..255, with values in 0..255 (R10).
The checksum functions take a table as an argument; the machine gives them `Config.crcTable`. -/
abbrev Table := Byte → Byte

/-- CRC_TABLE, the contents of the TABLE space (R10, R27).  The spec does not give its bytes and allows
a model nothing but totality, so this constant has no body: no proof can learn a value of it.
DESIGN CHOICE (log 1): a constant of the configuration rather than an argument of the step. -/
opaque Config.crcTable : Table

end Sys2Proof
end

