-- ==== Sys2Proof/Machine/State.lean ====
section
/-! DEFINITION. The state of CRC8-PF (spec/10_state.md R20, spec/70_reset_and_hazards.md R180). -/

namespace Sys2Proof.Machine

/-- The contents of the PKT space: the cells whose byte is not 0x00, by rising offset (log 7). -/
abbrev Memory := List Host.Cell

/-- What the host can present to the block between two commands: a reset or a command word
(spec/00_scope.md R8, spec/70_reset_and_hazards.md R181). -/
inductive HostEvent where
  /-- `rst` asserted (R181). -/
  | reset
  /-- A command word on `cmd[39:0]`, accepted by the block (R8). -/
  | cmd (w : CmdWord)
  deriving DecidableEq, Repr

/-- Why the block could stop: it cannot.  The step is total, every word executes or raises an error that
is a completed command (R7, R65, R152), and no address outside a space can be formed (R41, R42).  So no
operation raises a fault and the type has no constructor: safe, nothing is cut short (log 9). -/
inductive Fault where
  deriving DecidableEq, Repr

/-- Why the model could decline a command. -/
inductive Refusal where
  /-- Answered by exec's arm of a command without a meaning; no arm does.  Safe: it claims nothing. -/
  | notModelled (mnemonic : String)
  deriving DecidableEq, Repr

/-- R20's tuple (ACC, PKT, PKTV, ERR), and the block's two ports as the model's own fields: the host's
events still to come and the responses produced so far (R8; log 2, log 3). -/
structure State where
  /-- ACC, the accumulator (R21). -/
  acc : Byte
  /-- PKT[0..63], the packet buffer (R42). -/
  pkt : Memory
  /-- PKTV, "the buffer holds a built packet" (R24). -/
  pktv : Bool
  /-- ERR, the first error code since the last clear (R25). -/
  err : Byte
  /-- The events the host has still to present, oldest first (the model's own field, log 2). -/
  input : List HostEvent
  /-- The response words produced, oldest first (the model's own field, log 3). -/
  rsp : List RspWord
  deriving DecidableEq, Repr

/-- R180: ACC = 0x00, every PKT[i] = 0x00, PKTV = 0, ERR = 0x00.  Nothing is presented yet and nothing
has been answered (DESIGN CHOICE, log 2 and log 3). -/
def State.reset : State where
  acc := 0x00#8
  pkt := []
  pktv := false
  err := 0x00#8
  input := []
  rsp := []

end Sys2Proof.Machine
end

