-- ==== Sys2Proof/Machine/Ops.lean ====
section
/-! DEFINITION. The shared operations: the two address spaces, the registers, a command's completion,
error entry and its acknowledgement, and reset (spec/20_memory.md R41, R42, spec/60_exceptions.md R152,
R155, spec/70_reset_and_hazards.md R180, R181). -/

namespace Sys2Proof.Machine

/-! ### The PKT space -/

/-- What an offset not listed in a memory reads as: the reset contents of PKT (R180). -/
def Memory.unlisted : Byte := 0x00#8

/-- How many bytes the PKT space has (R40). -/
def Memory.size : Nat := 64

/-- The canonical form: offsets strictly rising, inside the PKT space, and no byte equal to what an
unlisted offset reads as (log 7). -/
abbrev Memory.wf (m : Memory) : Prop :=
  m.Pairwise (fun c d => c.1 < d.1) ∧ ∀ c ∈ m, c.1 < Memory.size ∧ c.2 ≠ Memory.unlisted

/-- The byte a memory holds at a cell number. -/
def Memory.get : Memory → Nat → Byte
  | [], _ => Memory.unlisted
  | (a, v) :: rest, k => if a = k then v else Memory.get rest k

/-- Put a byte in front of the cells of higher number; the unlisted byte is not listed. -/
def Memory.cons (k : Nat) (v : Byte) (m : Memory) : Memory :=
  if v = Memory.unlisted then m else (k, v) :: m

/-- Replace the byte at a cell number, keeping the canonical form. -/
def Memory.put : Memory → Nat → Byte → Memory
  | [], k, v => Memory.cons k v []
  | (a, x) :: rest, k, v =>
    if k < a then Memory.cons k v ((a, x) :: rest)
    else if k = a then Memory.cons k v rest
    else (a, x) :: Memory.put rest k v

/-- `MemRead(PKT, off, 1)`, written PKT[off] (R12, R42). -/
def Memory.read (m : Memory) (off : Offset) : Byte := m.get off.toNat

/-- `MemWrite(PKT, off, 1, v)`, written PKT[off] <- v (R12, R42). -/
def Memory.write (m : Memory) (off : Offset) (v : Byte) : Memory := m.put off.toNat v

/-- Byte writes in the order listed. -/
def Memory.writeEach (m : Memory) (ws : List (Offset × Byte)) : Memory :=
  ws.foldl (fun m w => m.write w.1 w.2) m

/-- The `n` ascending offsets from `first` on: the range `first..first+n-1` of a packet loop (R12, R54). -/
def offsetsFrom (first n : Nat) : List Offset := (List.range' first n).map (BitVec.ofNat 6)

/-- The whole buffer, PKT[0] first. -/
def Memory.bytes (m : Memory) : List Byte := (offsetsFrom 0 64).map m.read

/-! ### The TABLE space -/

/-- `MemRead(TABLE, a, 1)`, written T[a]: the table's value, with no side effect (R41). -/
def tableRead (T : Table) (a : Byte) : Byte := T a

/-! ### Completing a command, raising an error -/

/-- The response port takes one response word (R8, R62). -/
def State.respond (r : RspWord) (s : State) : State := { s with rsp := s.rsp ++ [r] }

/-- A command completes and returns a data byte (R62). -/
def State.complete (data : Byte) (s : State) : State := s.respond (okRsp data)

/-- Error entry (R152): ACC, PKT and PKTV keep their values, ERR takes the code if it was 0x00 (the
first error wins), and the response is {c, 0x00}.  Control goes nowhere: there is no handler. -/
def State.raise (e : ErrCode) (s : State) : State :=
  { s with err := if s.err = 0x00#8 then e.code else s.err }.respond (rspWord e.code 0x00#8)

/-- What stands in the place of a return from an error: ERR <- 0x00 and nothing else (R155). -/
def State.clearErr (s : State) : State := { s with err := 0x00#8 }

/-- A reset event (R180, R181): R20's tuple takes its reset values.  It produces no response word, and
the events behind it are still to be presented (log 11). -/
def State.resetEvent (s : State) : State :=
  { State.reset with input := s.input, rsp := s.rsp }

end Sys2Proof.Machine
end

