-- ==== Sys2Proof/Machine/Crc.lean ====
section
/-! DEFINITION. The checksum family: `upd`, `crc8`, CRCINIT, CRCUPD, CRCRD (spec/40_crc.md). -/

namespace Sys2Proof.Machine

/-- `upd(a, b) = T[a ^ b]` (R80). -/
def upd (T : Table) (a b : Byte) : Byte := tableRead T (a ^^^ b)

/-- `crc8(d, k)`: the bytes enter in sequence order, the first element first (R81, R54). -/
def crc8 (T : Table) (d : List Byte) (k : Byte) : Byte := d.foldl (upd T) k

/-- ACC <- upd(ACC, byte) (R85), over any table. -/
def State.absorb (T : Table) (byte : Byte) (s : State) : State := { s with acc := upd T s.acc byte }

/-- CRCINIT (R84). -/
def execCrcinit (init : Byte) (s : State) : Host.Outcome State Fault Refusal :=
  .next ({ s with acc := init }.complete 0x00#8)

/-- CRCUPD (R85). -/
def execCrcupd (byte : Byte) (s : State) : Host.Outcome State Fault Refusal :=
  .next ((s.absorb Config.crcTable byte).complete 0x00#8)

/-- CRCRD (R86). -/
def execCrcrd (s : State) : Host.Outcome State Fault Refusal := .next (s.complete s.acc)

end Sys2Proof.Machine
end

