-- ==== Sys2Proof/Machine/Packet.lean ====
section
/-! DEFINITION. The packet family: `packet`, PKTBUILD, PKTRD (spec/41_packet.md). -/

namespace Sys2Proof.Machine

/-- The report id, the constant 1 at offset 0 (R11, R100). -/
def reportId : Byte := 0x01#8

/-- The command id, the constant 3 (set-time) at offset 1 (R11, R100). -/
def commandId : Byte := 0x03#8

/-- The initial value of the packet checksum (R11, R100). -/
def packetSeed : Byte := 0x00#8

/-- Bytes 0..62 of the packet of a timestamp: the two ids, the timestamp big-endian, 57 zeros (R100). -/
def packetBody (ts : Word32) : List Byte :=
  reportId :: commandId :: (stampBytes ts ++ List.replicate 57 0x00#8)

/-- `packet(ts)`, 64 bytes: the body and, last, its checksum (R100). -/
def packet (T : Table) (ts : Word32) : List Byte :=
  packetBody ts ++ [crc8 T (packetBody ts) packetSeed]

/-- PKTBUILD's writes of PKT[0..5]: the ids and the timestamp (R104).  The three loops of PKTBUILD are
irreducible only so that a comparison of states does not run them; the kernel evaluates them as before. -/
@[irreducible] def writeFields (ts : Word32) (m : Memory) : Memory :=
  m.writeEach ((offsetsFrom 0 6).zip (reportId :: commandId :: stampBytes ts))

/-- PKTBUILD's zero fill: PKT[i] <- 0x00 for i = 6 to 62 (R104). -/
@[irreducible] def zeroFill (m : Memory) : Memory :=
  m.writeEach ((offsetsFrom 6 57).map (fun i => (i, 0x00#8)))

/-- PKTBUILD's fold over the buffer it has just written: a <- T[a ^ PKT[i]] for i = 0 to 62 (R104). -/
@[irreducible] def bufferChecksum (T : Table) (m : Memory) : Byte :=
  (offsetsFrom 0 63).foldl (fun a i => upd T a (m.read i)) packetSeed

/-- PKTBUILD over any table, in R104's order: fields, zero fill, checksum last; then ACC <- a, PKTV <- 1. -/
def State.buildPacket (T : Table) (ts : Word32) (s : State) : State :=
  let filled := zeroFill (writeFields ts s.pkt)
  let a := bufferChecksum T filled
  { s with pkt := filled.write 63#6 a, acc := a, pktv := true }

/-- PKTBUILD (R104): the response carries the checksum byte, which ACC now holds. -/
def execPktbuild (ts : Word32) (s : State) : Host.Outcome State Fault Refusal :=
  let t := s.buildPacket Config.crcTable ts
  .next (t.complete t.acc)

/-- PKTRD (R106): E_NOPKT while no packet has been built since reset. -/
def execPktrd (off : Offset) (s : State) : Host.Outcome State Fault Refusal :=
  if s.pktv then .next (s.complete (s.pkt.read off)) else .next (s.raise .nopkt)

end Sys2Proof.Machine
end

