-- ==== Sys2Proof/Machine/Flags.lean ====
section
/-! DEFINITION. The flag ERRF and the view STATUS (spec/10_state.md R24, R26). -/

namespace Sys2Proof.Machine

/-- ERRF = 1 if and only if ERR is not 0x00; not stored (R24). -/
def State.errf (s : State) : Bool := decide (s.err ≠ 0x00#8)

/-- STATUS: bit 0 PKTV, bit 1 ERRF, bits 7:2 read as 0 (R26). -/
def State.status (s : State) : Byte := 0#6 ++ (BitVec.ofBool s.errf ++ BitVec.ofBool s.pktv)

end Sys2Proof.Machine
end

