-- ==== Sys2Proof/Machine/System.lean ====
section
/-! DEFINITION. The system family: NOP, STAT, ERRRD, ERRCLR (spec/43_system.md). -/

namespace Sys2Proof.Machine

/-- NOP (R140). -/
def execNop (s : State) : Host.Outcome State Fault Refusal := .next (s.complete 0x00#8)

/-- STAT (R141). -/
def execStat (s : State) : Host.Outcome State Fault Refusal := .next (s.complete s.status)

/-- ERRRD (R142): reading does not clear. -/
def execErrrd (s : State) : Host.Outcome State Fault Refusal := .next (s.complete s.err)

/-- ERRCLR (R143). -/
def execErrclr (s : State) : Host.Outcome State Fault Refusal := .next (s.clearErr.complete 0x00#8)

end Sys2Proof.Machine
end

