-- ==== Sys2Proof/Machine/Time.lean ====
section
/-! DEFINITION. The time family: the hour transform and HOUR12 (spec/42_time.md R120, R121). -/

namespace Sys2Proof.Machine

/-- `hour12(use12, h)`, over mathematical integers (R120, R129). -/
def hour12 (use12 : Bool) (h : Int) : Int :=
  if use12 = false then h
  else if h = 0 then 12
  else if 13 ≤ h ∧ h ≤ 23 then h - 12
  else h

/-- HOUR12 (R121): E_RANGE for an hour above 23, and otherwise a pure function of the operands. -/
def execHour12 (use12 : Bool) (hour : Byte) (s : State) : Host.Outcome State Fault Refusal :=
  if hour.toNat ≤ 23 then .next (s.complete (BitVec.ofInt 8 (hour12 use12 hour.toNat)))
  else .next (s.raise .range)

end Sys2Proof.Machine
end

