-- ==== Sys2Proof/Machine/Dispatch.lean ====
section
/-! DEFINITION. One arm per command: the meaning it calls. -/

namespace Sys2Proof.Machine

def exec (i : Instr) (s : State) : Host.Outcome State Fault Refusal :=
  match i with
  | .nop => Sys2Proof.Machine.execNop s
  | .crcinit init => Sys2Proof.Machine.execCrcinit init s
  | .crcupd byte => Sys2Proof.Machine.execCrcupd byte s
  | .crcrd => Sys2Proof.Machine.execCrcrd s
  | .pktbuild ts => Sys2Proof.Machine.execPktbuild ts s
  | .pktrd off => Sys2Proof.Machine.execPktrd off s
  | .hour12 use12 hour => Sys2Proof.Machine.execHour12 use12 hour s
  | .stat => Sys2Proof.Machine.execStat s
  | .errrd => Sys2Proof.Machine.execErrrd s
  | .errclr => Sys2Proof.Machine.execErrclr s

end Sys2Proof.Machine
end

