-- ==== Sys2Proof/Machine/Command.lean ====
section
/-! DEFINITION. What the block does with one event of the host (spec/00_scope.md R7, R8,
spec/30_encoding.md R65, spec/70_reset_and_hazards.md R181). -/

namespace Sys2Proof.Machine

/-- The event the host presents next, and the state once it has been taken from the ports (R8). -/
def State.nextEvent (s : State) : Option (HostEvent × State) :=
  match s.input with
  | [] => none
  | e :: rest => some (e, { s with input := rest })

/-- One accepted command word: decoded and run, or answered with the error its decoding raises (R65). -/
def runCommand (w : CmdWord) (s : State) : Host.Outcome State Fault Refusal :=
  match decode w with
  | .ok i => exec i s
  | .error e => .next (s.raise e)

/-- One event of the host. -/
def runEvent (e : HostEvent) (s : State) : Host.Outcome State Fault Refusal :=
  match e with
  | .reset => .next s.resetEvent
  | .cmd w => runCommand w s

/-- One step: the next event, or nothing while the host presents nothing (log 4). -/
def advance (s : State) : Host.Outcome State Fault Refusal :=
  match s.nextEvent with
  | none => .next s
  | some (e, t) => runEvent e t

/-- The host presents a command word before everything else it has still to present (log 5). -/
def State.present (w : CmdWord) (s : State) : State := { s with input := .cmd w :: s.input }

end Sys2Proof.Machine
end

