-- ==== Sys2Proof/Machine/Step.lean ====
section
/-! DEFINITION. The step of the block, and the placing of one command for its next step. -/

namespace Sys2Proof.Machine

/-- One step of the block: one event of the host (R6, R7, R181). -/
def step (s : State) : Host.Outcome State Fault Refusal := advance s

/-- `s` with one command word presented next.  The block fetches from no memory (R23, R52): its command
comes from the `cmd` port, so the word goes to the front of the host's events (log 5). -/
def State.withFetchWord (s : State) (nbits w : Nat) : State := s.present (tableWord nbits w)

end Sys2Proof.Machine
end

