-- ==== Sys2Proof/Machine/Civil.lean ====
section
/-! DEFINITION. The pure functions the host evaluates: civil time, the UTC+8 timestamp and the composite
`build_packet` (spec/42_time.md R123 to R128).  They are normative functions, not commands (log 13). -/

namespace Sys2Proof.Machine

/-- The six integer fields of a wall-clock reading (R123). -/
structure CivilTime where
  year : Int
  month : Int
  day : Int
  hour : Int
  minute : Int
  second : Int
  deriving DecidableEq, Repr

/-- A leap year of the Gregorian calendar (R123). -/
def leapYear (y : Int) : Bool := decide (y % 4 = 0 ∧ (y % 100 ≠ 0 ∨ y % 400 = 0))

/-- `dim(Y, Mo)`, the days of a month (R123). -/
def daysInMonth (y mo : Int) : Int :=
  if mo = 2 then (if leapYear y then 29 else 28)
  else if mo = 4 ∨ mo = 6 ∨ mo = 9 ∨ mo = 11 then 30
  else 31

/-- Valid civil fields (R123); a second of 60 is not valid. -/
def CivilTime.valid (c : CivilTime) : Bool :=
  decide (1 ≤ c.month ∧ c.month ≤ 12 ∧ 1 ≤ c.day ∧ c.day ≤ daysInMonth c.year c.month ∧
    0 ≤ c.hour ∧ c.hour ≤ 23 ∧ 0 ≤ c.minute ∧ c.minute ≤ 59 ∧ 0 ≤ c.second ∧ c.second ≤ 59)

/-- `days_from_civil(Y, Mo, D)` (R125).  Integer division by a positive constant rounds down, so the
formula also has a value before year 0, where the spec states none (log 10). -/
def daysFromCivil (year month day : Int) : Int :=
  let y := if month ≤ 2 then year - 1 else year
  let era := y / 400
  let yoe := y - era * 400
  let mp := (month + 9) % 12
  let doy := (153 * mp + 2) / 5 + day - 1
  let doe := yoe * 365 + yoe / 4 - yoe / 100 + doy
  era * 146097 + doe - 719468

/-- The length of a year in days (R125). -/
def yearLength (y : Int) : Int := if leapYear y then 366 else 365

/-- The days of the `n` years from 1970 on (R125). -/
def daysOfYears : Nat → Int
  | 0 => 0
  | n + 1 => daysOfYears n + yearLength (1970 + n)

/-- The days of the first `n` months of a year (R125). -/
def daysOfMonths (y : Int) : Nat → Int
  | 0 => 0
  | n + 1 => daysOfMonths y n + daysInMonth y (n + 1)

/-- R125's "equivalent definition a model may prefer", for years from 1970 on: the year lengths, the
month lengths, and the day of the month. -/
def daysBySummation (year month day : Int) : Int :=
  daysOfYears (year - 1970).toNat + daysOfMonths year (month - 1).toNat + day - 1

/-- The fixed offset UTC+8 in seconds (R11, R124). -/
def utc8Seconds : Int := 28800

/-- `ts_utc8`, a mathematical integer (R124, R129). -/
def tsUtc8 (c : CivilTime) : Int :=
  daysFromCivil c.year c.month c.day * 86400 + c.hour * 3600 + c.minute * 60 + c.second - utc8Seconds

/-- The one way the host-side functions fail (R127).  It is not an error code of the block. -/
inductive HostFailure where
  /-- ClockFailure: invalid civil fields, or a timestamp that does not fit in 32 unsigned bits (R127). -/
  | clockFailure
  deriving DecidableEq, Repr

/-- The civil fields with the hour transformed; nothing else moves (R126). -/
def CivilTime.displayed (c : CivilTime) (use12 : Bool) : CivilTime :=
  { c with hour := hour12 use12 c.hour }

/-- The timestamp the host passes to PKTBUILD, or ClockFailure; never truncated or wrapped (R126, R127). -/
def hostStamp (c : CivilTime) (use12 : Bool) : Except HostFailure Word32 :=
  if c.valid then
    let t := tsUtc8 (c.displayed use12)
    if t < 0 ∨ 4294967295 < t then .error .clockFailure else .ok (BitVec.ofInt 32 t)
  else .error .clockFailure

/-- `build_packet(c, use12)` (R126). -/
def buildPacketAt (T : Table) (c : CivilTime) (use12 : Bool) : Except HostFailure (List Byte) :=
  (hostStamp c use12).map (packet T)

end Sys2Proof.Machine
end

