-- ==== Sys2Proof/Machine/HostSide.lean ====
section
/-! DEFINITION. What a host does with the block: the pseudo-instructions, the host duties, and the bytes
it puts on the wire (spec/30_encoding.md R71, spec/00_scope.md R9, spec/41_packet.md R108). -/

namespace Sys2Proof.Machine

/-- `crcbuf <init>, <b0>, ..., <bn-1>` (R71, R9 (a)). -/
def crcbuf (init : Byte) (d : List Byte) : List Instr := .crcinit init :: (d.map .crcupd ++ [.crcrd])

/-- `pktdump`: the 64 reads in ascending order (R71). -/
def pktdump : List Instr := (offsetsFrom 0 64).map .pktrd

/-- `tablerd <a>` (R71). -/
def tablerd (a : Byte) : List Instr := [.crcinit a, .crcupd 0x00#8, .crcrd]

/-- The events by which the host presents commands (R8). -/
def presented (is : List Instr) : List HostEvent := is.map (fun i => .cmd (encode i))

/-- R9 (b): the commands that fetch the packet of a civil time, or ClockFailure, in which case no
PKTBUILD is issued (R127).  The hour transform is the host's own evaluation of R120. -/
def fetchPacket (c : CivilTime) (use12 : Bool) : Except HostFailure (List Instr) :=
  (hostStamp c use12).map (fun ts => .pktbuild ts :: pktdump)

/-- The data bytes of a list of responses: what the host has read, in order (R62). -/
def dataBytes (rs : List RspWord) : List Byte := rs.map (fun r => r.extractLsb' 0 8)

/-- R9 (c), R108: the one 64-byte write to the peripheral, made of the 64 PKTRD responses, PKT[0] first.
The peripheral itself is outside the block (R4). -/
def wireBytes (reads : List RspWord) : List Byte := dataBytes reads

end Sys2Proof.Machine
end

