-- ==== Sys2Proof/Machine/Assembler.lean ====
section
/-! DEFINITION. The assembler (spec/30_encoding.md R70, R71): text to command words, refusing an operand
outside the range its row shows.  Lexical details the spec leaves open are in log 12. -/

namespace Sys2Proof.Machine

/-- The mnemonics of R70 and R71, and the directive `.word`. -/
inductive Mnemonic where
  | nop | crcinit | crcupd | crcrd | pktbuild | pktrd | hour12 | stat | errrd | errclr
  | word | crcbuf | pktdump | tablerd
  deriving DecidableEq, Repr

/-- Why a line of assembly is refused. -/
inductive AsmError where
  /-- The first word of the line is no mnemonic. -/
  | unknownMnemonic
  /-- An operand is no decimal or 0x number. -/
  | badNumber
  /-- The mnemonic does not take this many operands. -/
  | operandCount
  /-- An operand is outside the range R70 shows. -/
  | operandRange
  deriving DecidableEq, Repr

/-- The spelling in lower case (R70, R71). -/
def Mnemonic.spelling : Mnemonic → String
  | .nop => "nop" | .crcinit => "crcinit" | .crcupd => "crcupd" | .crcrd => "crcrd"
  | .pktbuild => "pktbuild" | .pktrd => "pktrd" | .hour12 => "hour12" | .stat => "stat"
  | .errrd => "errrd" | .errclr => "errclr" | .word => ".word" | .crcbuf => "crcbuf"
  | .pktdump => "pktdump" | .tablerd => "tablerd"

/-- Every mnemonic, once. -/
def allMnemonics : List Mnemonic :=
  [.nop, .crcinit, .crcupd, .crcrd, .pktbuild, .pktrd, .hour12, .stat, .errrd, .errclr,
   .word, .crcbuf, .pktdump, .tablerd]

/-- "a mnemonic in lower or upper case" (R70); a mix of both is taken as well (log 12). -/
def mnemonicOf (cs : List Char) : Option Mnemonic :=
  allMnemonics.find? (fun m => decide (cs.map Char.toLower = m.spelling.toList))

/-- A number below a bound, or the refusal of the operand (R70). -/
def ranged (bound n : Nat) : Except AsmError Nat :=
  if n < bound then .ok n else .error .operandRange

/-- A byte operand, 0..255 (R70). -/
def byteArg (n : Nat) : Except AsmError Byte := (ranged 256 n).map (BitVec.ofNat 8)

/-- The byte operands of `crcbuf` (R71). -/
def byteArgs : List Nat → Except AsmError (List Byte)
  | [] => .ok []
  | n :: ns => (byteArg n).bind (fun b => (byteArgs ns).map (b :: ·))

/-- A mnemonic with its operands, as the command words it stands for (R70, R71). -/
def assembleStatement : Mnemonic → List Nat → Except AsmError (List CmdWord)
  | .nop, [] => .ok [encode .nop]
  | .crcinit, [n] => (byteArg n).map (fun b => [encode (.crcinit b)])
  | .crcupd, [n] => (byteArg n).map (fun b => [encode (.crcupd b)])
  | .crcrd, [] => .ok [encode .crcrd]
  | .pktbuild, [n] => (ranged 4294967296 n).map (fun n => [encode (.pktbuild (BitVec.ofNat 32 n))])
  | .pktrd, [n] => (ranged 64 n).map (fun n => [encode (.pktrd (BitVec.ofNat 6 n))])
  | .hour12, [u, h] => (ranged 2 u).bind (fun u =>
      (ranged 24 h).map (fun h => [encode (.hour12 (decide (u = 1)) (BitVec.ofNat 8 h))]))
  | .stat, [] => .ok [encode .stat]
  | .errrd, [] => .ok [encode .errrd]
  | .errclr, [] => .ok [encode .errclr]
  | .word, [n] => (ranged 1099511627776 n).map (fun n => [BitVec.ofNat 40 n])
  | .crcbuf, n :: ns => (byteArg n).bind (fun b => (byteArgs ns).map (fun d => (crcbuf b d).map encode))
  | .pktdump, [] => .ok (pktdump.map encode)
  | .tablerd, [n] => (byteArg n).map (fun a => (tablerd a).map encode)
  | _, _ => .error .operandCount

/-- The value of a digit of a base of at most 16. -/
def digitOf (base : Nat) (c : Char) : Option Nat :=
  let n := c.toNat
  let d := if 48 ≤ n ∧ n ≤ 57 then n - 48
    else if 97 ≤ n ∧ n ≤ 102 then n - 87
    else if 65 ≤ n ∧ n ≤ 70 then n - 55
    else 16
  if d < base then some d else none

/-- Digits, most significant first, added to what stands before them. -/
def digitsFrom (base acc : Nat) : List Char → Option Nat
  | [] => some acc
  | c :: cs => (digitOf base c).bind (fun d => digitsFrom base (acc * base + d) cs)

/-- "numbers decimal or 0x hexadecimal" (R70). -/
def numberOf : List Char → Except AsmError Nat
  | [] => .error .badNumber
  | '0' :: 'x' :: c :: cs => (digitsFrom 16 0 (c :: cs)).elim (.error .badNumber) .ok
  | cs => (digitsFrom 10 0 cs).elim (.error .badNumber) .ok

/-- White space inside a line (log 12). -/
def blank (c : Char) : Bool := c == ' ' || c == '\t' || c == '\r'

/-- A text without the white space around it. -/
def trim (cs : List Char) : List Char := ((cs.dropWhile blank).reverse.dropWhile blank).reverse

/-- A text cut at every `sep`; the piece before the first `sep` is read into `piece`, last character first. -/
def cutAt (sep : Char) (piece : List Char) : List Char → List (List Char)
  | [] => [piece.reverse]
  | c :: cs => if c = sep then piece.reverse :: cutAt sep [] cs else cutAt sep (c :: piece) cs

/-- The operands of a line, separated by commas (R70). -/
def operandsOf (cs : List Char) : Except AsmError (List Nat) :=
  if (trim cs).isEmpty then .ok [] else (cutAt ',' [] cs).mapM (fun a => numberOf (trim a))

/-- One line: `;` starts a comment, an empty line stands for no command (R70). -/
def assembleLine (line : List Char) : Except AsmError (List CmdWord) :=
  let code := trim (line.takeWhile (· ≠ ';'))
  if code.isEmpty then .ok []
  else
    match mnemonicOf (code.takeWhile (fun c => !blank c)) with
    | none => .error .unknownMnemonic
    | some m => (operandsOf (code.dropWhile (fun c => !blank c))).bind (assembleStatement m)

/-- A text, one command a line (R70). -/
def assemble (text : List Char) : Except AsmError (List CmdWord) :=
  ((cutAt '\n' [] text).mapM assembleLine).map List.flatten

end Sys2Proof.Machine
end

