-- ==== Sys2Proof/Machine/TableGen.lean ====
section
/-! DEFINITION. How a CRC-8 table is generated from a polynomial (spec/93_implementation_defined.md G3).
Optional: no meaning uses it, and neither illustrative table is the hardware's (log 14). -/

namespace Sys2Proof.Machine

/-- One step of the MSB-first division by the polynomial `P` (G3). -/
def msbStep (P c : Byte) : Byte := if c.getLsbD 7 then (c <<< 1) ^^^ P else c <<< 1

/-- One step of the LSB-first division by the bit-reversed polynomial `Q` (G3). -/
def lsbStep (Q c : Byte) : Byte := if c.getLsbD 0 then (c >>> 1) ^^^ Q else c >>> 1

/-- `table_msb(P)` (G3). -/
def tableMsb (P : Byte) : Table := fun i => (msbStep P)^[8] i

/-- `table_lsb(Q)` (G3). -/
def tableLsb (Q : Byte) : Table := fun i => (lsbStep Q)^[8] i

end Sys2Proof.Machine
end

