-- ==== Sys2Proof/Safety.lean ====
section
/-! DEFINITION. What a state of a run looks like, and what a safe run is (spec/10_state.md R30,
spec/41_packet.md R101, spec/70_reset_and_hazards.md R189). -/

namespace Sys2Proof.Machine

/-- R101 over a buffer: the ids, the zero bytes 6..62, and the checksum of bytes 0..62 at offset 63. -/
def packetInvariant (T : Table) (m : Memory) : Prop :=
  m.read 0#6 = 0x01#8 ∧ m.read 1#6 = 0x03#8 ∧
  (∀ i : Offset, 6 ≤ i.toNat → i.toNat ≤ 62 → m.read i = 0x00#8) ∧
  m.read 63#6 = crc8 T (m.bytes.take 63) 0x00#8

/-- R30, and the canonical form of the buffer (log 7). -/
structure State.Inv (s : State) : Prop where
  /-- The buffer's cells are in canonical form. -/
  canonical : s.pkt.wf
  /-- R30 (a). -/
  errLegal : s.err.toNat ≤ 4
  /-- R30 (b). -/
  unbuilt : s.pktv = false → ∀ i, s.pkt.read i = 0x00#8
  /-- R30 (c). -/
  built : s.pktv = true → packetInvariant Config.crcTable s.pkt

/-- The states a run reaches: reset, whatever the host presents, and every step (R189). -/
inductive Reachable : State → Prop where
  | reset : Reachable State.reset
  | presents (s : State) (events : List HostEvent) : Reachable s → Reachable { s with input := events }
  | step (s t : State) : Reachable s → step s = .next t → Reachable t

/-- A safe outcome: the machine has not stopped (R65, R152). -/
def goesOn (o : Host.Outcome State Fault Refusal) : Prop := ∃ t, o = .next t

end Sys2Proof.Machine
end

