-- ==== Sys2Proof/WellFormed.lean ====
section
/-! DEFINITION. Which commands are legal encodings (spec/30_encoding.md R64). -/

namespace Sys2Proof

/-- R64: a word is a legal encoding when it matches its row, "for HOUR12 additionally hour <= 23".
Every other operand is legal at every value of its field (R63), which its type already says.
An ill-formed HOUR12 still decodes, and raises E_RANGE when it runs (R65, log 8). -/
def Instr.wellFormed : Instr → Bool
  | .nop => true
  | .crcinit _ => true
  | .crcupd _ => true
  | .crcrd => true
  | .pktbuild _ => true
  | .pktrd _ => true
  | .hour12 _ hour => decide (hour.toNat ≤ 23)
  | .stat => true
  | .errrd => true
  | .errclr => true

end Sys2Proof
end

