-- ==== Sys2Proof/Certificates/Slice0/Obligations.lean ====
section
/-! DEFINITION. The statements for the provers, each from the numbered rules of spec/. -/

open Sys2Proof Sys2Proof.Machine

/-! ### The words the statements use, written from the spec and not from the model's operations -/

/-- The block's next step when the host presents the command word `w` next. -/
def Sys2Proof.Stated.stepOn (w : CmdWord) (s : State) : Host.Outcome State Fault Refusal :=
  step { s with input := .cmd w :: s.input }

/-- `s` after a command that changes nothing else and answers `RSP <- {0x00, data}`. -/
def Sys2Proof.Stated.answered (data : Byte) (s : State) : State :=
  { s with rsp := s.rsp ++ [(0x00#8 ++ data : BitVec 16)] }

/-- `s` after error entry with code `c` (R152): first error wins in ERR, response `{c, 0x00}`, nothing else. -/
def Sys2Proof.Stated.erred (c : Byte) (s : State) : State :=
  { s with err := if s.err = 0x00#8 then c else s.err, rsp := s.rsp ++ [(c ++ 0x00#8 : BitVec 16)] }

/-- The ten defined opcodes of R64. -/
def Sys2Proof.Stated.opcodes : List Byte :=
  [0x00#8, 0x01#8, 0x02#8, 0x03#8, 0x10#8, 0x11#8, 0x20#8, 0x30#8, 0x31#8, 0x32#8]

/-- R67: a reserved bit of `imm` is set for this opcode. -/
abbrev Sys2Proof.Stated.reservedBitSet (op : Byte) (imm : Word32) : Prop :=
  ((op = 0x01#8 ∨ op = 0x02#8) ∧ 0xFF < imm.toNat) ∨
  (op = 0x11#8 ∧ 63 < imm.toNat) ∨
  (op = 0x20#8 ∧ 0x1FF < imm.toNat) ∨
  ((op = 0x00#8 ∨ op = 0x03#8 ∨ op = 0x30#8 ∨ op = 0x31#8 ∨ op = 0x32#8) ∧ imm ≠ 0#32)

/-- `n` steps of the machine. -/
def Sys2Proof.Stated.steps (n : Nat) (s : State) : Host.Outcome State Fault Refusal :=
  Host.Core.run Sys2Proof.core n s

/-- `s` when the host presents these commands before everything it has still to present. -/
def Sys2Proof.Stated.facing (is : List Instr) (s : State) : State :=
  { s with input := is.map (fun i => .cmd (encode i)) ++ s.input }

open Sys2Proof.Stated

/-! ### Encoding and decoding -/

/-- R61, R63: no bit of a command is lost by its encoding, and each accepted word has one meaning. -/
def Obligations.EncodeAndDecodeAreInverse : Prop :=
  (∀ i, decode (encode i) = .ok i) ∧ ∀ w i, decode w = .ok i → encode i = w

/-- R64's match and mask: a word is a legal encoding of a row exactly when `w & mask = match`, "for HOUR12
additionally hour <= 23". -/
def Obligations.MatchAndMaskSelectTheCommand : Prop :=
  ∀ w : CmdWord,
    (w &&& 0xFFFFFFFFFF#40 = 0x0000000000#40 ↔ decode w = .ok .nop) ∧
    (w &&& 0xFFFFFFFF00#40 = 0x0100000000#40 ↔ ∃ b, decode w = .ok (.crcinit b)) ∧
    (w &&& 0xFFFFFFFF00#40 = 0x0200000000#40 ↔ ∃ b, decode w = .ok (.crcupd b)) ∧
    (w &&& 0xFFFFFFFFFF#40 = 0x0300000000#40 ↔ decode w = .ok .crcrd) ∧
    (w &&& 0xFF00000000#40 = 0x1000000000#40 ↔ ∃ ts, decode w = .ok (.pktbuild ts)) ∧
    (w &&& 0xFFFFFFFFC0#40 = 0x1100000000#40 ↔ ∃ off, decode w = .ok (.pktrd off)) ∧
    ((w &&& 0xFFFFFFFE00#40 = 0x2000000000#40 ∧ (w.extractLsb' 0 8).toNat ≤ 23) ↔
      ∃ u h, decode w = .ok (.hour12 u h) ∧ (Instr.hour12 u h).wellFormed = true) ∧
    (w &&& 0xFFFFFFFFFF#40 = 0x3000000000#40 ↔ decode w = .ok .stat) ∧
    (w &&& 0xFFFFFFFFFF#40 = 0x3100000000#40 ↔ decode w = .ok .errrd) ∧
    (w &&& 0xFFFFFFFFFF#40 = 0x3200000000#40 ↔ decode w = .ok .errclr)

/-- Words written out from the spec (R70, spec/95_test_vectors.md) and the commands they stand for. -/
def Obligations.WrittenOutWordsDecode : Prop :=
  decode 0x0000000000#40 = .ok .nop ∧
  decode 0x010000005A#40 = .ok (.crcinit 0x5A#8) ∧
  decode 0x0200000041#40 = .ok (.crcupd 0x41#8) ∧
  decode 0x1065920080#40 = .ok (.pktbuild 0x65920080#32) ∧
  decode 0x110000003F#40 = .ok (.pktrd 63#6) ∧
  decode 0x200000010E#40 = .ok (.hour12 true 14#8) ∧
  decode 0x3200000000#40 = .ok .errclr ∧
  decode 0x0400000000#40 = .error .illop ∧
  decode 0x1100000040#40 = .error .rsvd

/-- R66: a reserved opcode raises E_ILLOP whatever its imm, and changes no state except ERR. -/
def Obligations.ReservedOpcodeRaisesIllop : Prop :=
  ∀ (op : Byte) (imm : Word32) (s : State), op ∉ opcodes →
    stepOn (op ++ imm) s = .next (erred 0x01#8 s)

/-- R67, R65 step 3: a defined opcode with a reserved bit set raises E_RSVD, and no other word with a defined
opcode raises E_RSVD in decoding: it decodes. That HOUR12 with hour 24..255 is among the words that decode, and
raises E_RANGE (R65 step 4) when it runs, is the model's reading: log 8, DEDUCED. -/
def Obligations.ReservedOperandBitRaisesRsvd : Prop :=
  (∀ (op : Byte) (imm : Word32) (s : State), reservedBitSet op imm →
    stepOn (op ++ imm) s = .next (erred 0x02#8 s)) ∧
  ∀ (op : Byte) (imm : Word32), op ∈ opcodes → ¬ reservedBitSet op imm → ∃ i, decode (op ++ imm) = .ok i

/-- R65 and R154: the checks are made in the fixed order opcode, reserved bits, hour, PKTV; the first that
fails decides the error; a word that passes all of them executes its command and completes with status 0x00. -/
def Obligations.ChecksAreMadeInTheFixedOrder : Prop :=
  ∀ (op : Byte) (imm : Word32) (s : State),
    (op ∉ opcodes → stepOn (op ++ imm) s = .next (erred 0x01#8 s)) ∧
    (op ∈ opcodes → reservedBitSet op imm → stepOn (op ++ imm) s = .next (erred 0x02#8 s)) ∧
    (op ∈ opcodes → ¬ reservedBitSet op imm →
      (op = 0x20#8 → 23 < (imm.extractLsb' 0 8).toNat → stepOn (op ++ imm) s = .next (erred 0x03#8 s)) ∧
      (op = 0x11#8 → s.pktv = false → stepOn (op ++ imm) s = .next (erred 0x04#8 s)) ∧
      (¬ (op = 0x20#8 ∧ 23 < (imm.extractLsb' 0 8).toNat) → ¬ (op = 0x11#8 ∧ s.pktv = false) →
        ∃ (i : Instr) (t : State) (d : Byte), decode (op ++ imm) = .ok i ∧ stepOn (op ++ imm) s = exec i s ∧ exec i s = .next t ∧
          t.rsp = s.rsp ++ [(0x00#8 ++ d : BitVec 16)]))

/-- A step takes the host's next event and nothing else: a command word that decodes runs its command on
the state with the word taken from the port, one that does not is answered with its error, a reset event
resets, and with nothing presented the state stands still (the last is the model's choice, log 4). -/
def Obligations.StepRunsTheDecodedCommand : Prop :=
  (∀ (w : CmdWord) (rest : List HostEvent) (s : State) (i : Instr), s.input = .cmd w :: rest → decode w = .ok i →
    step s = exec i { s with input := rest }) ∧
  (∀ (w : CmdWord) (rest : List HostEvent) (s : State) (e : ErrCode), s.input = .cmd w :: rest →
    decode w = .error e → step s = .next (erred e.code { s with input := rest })) ∧
  (∀ (rest : List HostEvent) (s : State), s.input = .reset :: rest →
    step s = .next { State.reset with input := rest, rsp := s.rsp }) ∧
  ∀ s : State, s.input = [] → step s = .next s

/-! ### The checksum family -/

/-- R84: CRCINIT writes its operand to ACC, changes nothing else and answers 0x0000; with a bit of
imm[31:8] set it raises E_RSVD and leaves ACC. -/
def Obligations.CrcinitSeedsTheAccumulator : Prop :=
  (∀ (init : Byte) (s : State), exec (.crcinit init) s = .next (answered 0x00#8 { s with acc := init })) ∧
  (∀ (init : Byte) (s : State),
    stepOn (0x01#8 ++ (0#24 ++ init)) s = .next (answered 0x00#8 { s with acc := init })) ∧
  ∀ (imm : Word32) (s : State), imm.extractLsb' 8 24 ≠ 0#24 →
    stepOn (0x01#8 ++ imm) s = .next (erred 0x02#8 s)

/-- R85: CRCUPD replaces ACC by T[ACC ^ byte], changes nothing else and answers 0x0000; with a bit of
imm[31:8] set it raises E_RSVD and leaves ACC. -/
def Obligations.CrcupdAbsorbsOneByte : Prop :=
  (∀ (byte : Byte) (s : State), exec (.crcupd byte) s =
    .next (answered 0x00#8 { s with acc := Config.crcTable (s.acc ^^^ byte) })) ∧
  (∀ (byte : Byte) (s : State), stepOn (0x02#8 ++ (0#24 ++ byte)) s =
    .next (answered 0x00#8 { s with acc := Config.crcTable (s.acc ^^^ byte) })) ∧
  ∀ (imm : Word32) (s : State), imm.extractLsb' 8 24 ≠ 0#24 →
    stepOn (0x02#8 ++ imm) s = .next (erred 0x02#8 s)

/-- R86: CRCRD answers {0x00, ACC} and changes no state; with imm != 0 it raises E_RSVD. -/
def Obligations.CrcrdReadsTheAccumulator : Prop :=
  (∀ s : State, exec .crcrd s = .next (answered s.acc s)) ∧
  (∀ s : State, stepOn (0x03#8 ++ 0#32) s = .next (answered s.acc s)) ∧
  ∀ (imm : Word32) (s : State), imm ≠ 0#32 → stepOn (0x03#8 ++ imm) s = .next (erred 0x02#8 s)

/-- R80, R82, R83: the laws of the checksum over every table. -/
def Obligations.ChecksumLawsOverEveryTable : Prop :=
  ∀ T : Table,
    (∀ a b, upd T a b = T (a ^^^ b)) ∧
    (∀ k, crc8 T [] k = k) ∧
    (∀ b k, crc8 T [b] k = T (k ^^^ b)) ∧
    (∀ d e k, crc8 T (d ++ e) k = crc8 T e (crc8 T d k)) ∧
    ∀ a, crc8 T [0x00#8] a = T a ∧ crc8 T [a] 0x00#8 = T a

/-- R87: CRCINIT k; CRCUPD d0; ...; CRCUPD dn-1; CRCRD from any state ends with ACC = crc8(d, k); the last
response is {0x00, crc8(d, k)}, every earlier one 0x0000, and PKT, PKTV and ERR are unchanged. -/
def Obligations.StreamedBytesGiveTheChecksum : Prop :=
  ∀ (k : Byte) (d : List Byte) (s : State),
    steps (d.length + 2) (facing (crcbuf k d) s) =
      .next { s with
        acc := crc8 Config.crcTable d k
        rsp := s.rsp ++ List.replicate (d.length + 1) 0x0000#16 ++
          [(0x00#8 ++ crc8 Config.crcTable d k : BitVec 16)] }

/-- R41, R71: `tablerd a` answers {0x00, CRC_TABLE(a)}. -/
def Obligations.TablerdReturnsTheTableEntry : Prop :=
  ∀ (a : Byte) (s : State),
    steps 3 (facing (tablerd a) s) =
      .next { s with
        acc := Config.crcTable a
        rsp := s.rsp ++ [0x0000#16, 0x0000#16, (0x00#8 ++ Config.crcTable a : BitVec 16)] }

/-! ### The packet family -/

/-- R100, R101: the 64 bytes of packet(ts), for every table. -/
def Obligations.PacketHasTheFixedLayout : Prop :=
  ∀ (T : Table) (ts : Word32),
    (packet T ts).length = 64 ∧
    (packet T ts)[0]? = some 0x01#8 ∧ (packet T ts)[1]? = some 0x03#8 ∧
    (packet T ts)[2]? = some (ts.extractLsb' 24 8) ∧ (packet T ts)[3]? = some (ts.extractLsb' 16 8) ∧
    (packet T ts)[4]? = some (ts.extractLsb' 8 8) ∧ (packet T ts)[5]? = some (ts.extractLsb' 0 8) ∧
    (∀ i, 6 ≤ i → i ≤ 62 → (packet T ts)[i]? = some 0x00#8) ∧
    (packet T ts)[63]? = some (crc8 T ((packet T ts).take 63) 0x00#8)

/-- R102, R103: the checksum byte in closed form, the table applied once per reserved byte, and the input
of the golden vector. -/
def Obligations.ChecksumByteInClosedForm : Prop :=
  ∀ T : Table,
    (∀ ts : Word32,
      (packet T ts)[63]? = some (T^[57]
        (T (T (T (T (T (T 0x01#8 ^^^ 0x03#8) ^^^ ts.extractLsb' 24 8) ^^^ ts.extractLsb' 16 8) ^^^
          ts.extractLsb' 8 8) ^^^ ts.extractLsb' 0 8)))) ∧
    crc8 T ([0x01#8, 0x03#8] ++ List.replicate 61 0x00#8) 0x00#8 = T^[61] (T (T 0x01#8 ^^^ 0x03#8)) ∧
    (packet T 0#32)[63]? = some (T^[61] (T (T 0x01#8 ^^^ 0x03#8)))

/-- R104: PKTBUILD completes on every state and every ts, with PKTV 1, the response carrying ACC, and ERR and the
host's further events as before; from a buffer in canonical form PKT = packet(ts) and ACC is the checksum byte.
The canonical form, premise `s.pkt.wf` and conclusion `t.pkt.wf`, is the model's representation: log 7, DESIGN
CHOICE. -/
def Obligations.PktbuildBuildsThePacket : Prop :=
  (∀ (ts : Word32) (s : State), ∃ t, exec (.pktbuild ts) s = .next t ∧
    t.pktv = true ∧ t.err = s.err ∧ t.input = s.input ∧ t.rsp = s.rsp ++ [(0x00#8 ++ t.acc : BitVec 16)] ∧
    (s.pkt.wf →
      t.pkt.bytes = packet Config.crcTable ts ∧
      t.acc = crc8 Config.crcTable ((packet Config.crcTable ts).take 63) 0x00#8 ∧
      t.pkt.read 63#6 = t.acc ∧ t.pkt.wf)) ∧
  ∀ (ts : Word32) (s : State), stepOn (0x10#8 ++ ts) s = exec (.pktbuild ts) s

/-- R43, R44: the map of the PKT space after PKTBUILD ts, the timestamp most significant byte first. The premise
is the canonical form of the buffer, the model's representation: log 7, DESIGN CHOICE. -/
def Obligations.PacketBufferHasTheFixedMap : Prop :=
  ∀ (ts : Word32) (s t : State), s.pkt.wf → exec (.pktbuild ts) s = .next t →
    t.pkt.read 0#6 = 0x01#8 ∧ t.pkt.read 1#6 = 0x03#8 ∧
    t.pkt.read 2#6 = ts.extractLsb' 24 8 ∧ t.pkt.read 3#6 = ts.extractLsb' 16 8 ∧
    t.pkt.read 4#6 = ts.extractLsb' 8 8 ∧ t.pkt.read 5#6 = ts.extractLsb' 0 8 ∧
    (∀ i : Offset, 6 ≤ i.toNat → i.toNat ≤ 62 → t.pkt.read i = 0x00#8) ∧
    t.pkt.read 63#6 = crc8 Config.crcTable ((offsetsFrom 0 63).map t.pkt.read) 0x00#8

/-- R104, R184: what PKTBUILD leaves in PKT, ACC and PKTV depends on ts alone, whatever the buffer and the
accumulator held. The premises are the buffers' canonical form: log 7, DESIGN CHOICE. -/
def Obligations.PktbuildForgetsWhatItFinds : Prop :=
  ∀ (ts : Word32) (s₁ s₂ t₁ t₂ : State), s₁.pkt.wf → s₂.pkt.wf →
    exec (.pktbuild ts) s₁ = .next t₁ → exec (.pktbuild ts) s₂ = .next t₂ →
    t₁.pkt = t₂.pkt ∧ t₁.acc = t₂.acc ∧ t₁.pktv = t₂.pktv

/-- R106: PKTRD answers {0x00, PKT[off]} and changes no state when a packet has been built; otherwise it
raises E_NOPKT; with a bit of imm[31:6] set it raises E_RSVD in both cases. -/
def Obligations.PktrdReadsOneByte : Prop :=
  (∀ (off : Offset) (s : State), s.pktv = true → exec (.pktrd off) s = .next (answered (s.pkt.read off) s)) ∧
  (∀ (off : Offset) (s : State), s.pktv = false → exec (.pktrd off) s = .next (erred 0x04#8 s)) ∧
  (∀ (off : Offset) (s : State), stepOn (0x11#8 ++ (0#26 ++ off)) s = exec (.pktrd off) s) ∧
  ∀ (imm : Word32) (s : State), imm.extractLsb' 6 26 ≠ 0#26 →
    stepOn (0x11#8 ++ imm) s = .next (erred 0x02#8 s)

/-- R107: PKTBUILD ts; PKTRD 0; ...; PKTRD 63 returns exactly packet(ts), byte by byte, after the
PKTBUILD response {0x00, packet(ts)[63]}. The premise is the buffer's canonical form: log 7, DESIGN CHOICE. -/
def Obligations.PktdumpReturnsThePacket : Prop :=
  ∀ (ts : Word32) (s : State), s.pkt.wf →
    ∃ t, steps 65 (facing (.pktbuild ts :: pktdump) s) = .next t ∧
      t.rsp = s.rsp ++ [(0x00#8 ++ crc8 Config.crcTable ((packet Config.crcTable ts).take 63) 0x00#8 : BitVec 16)] ++
        (packet Config.crcTable ts).map (fun b => (0x00#8 ++ b : BitVec 16)) ∧
      t.pkt.bytes = packet Config.crcTable ts ∧ t.err = s.err ∧ t.input = s.input

/-- R184: a stream interrupted by PKTBUILD is lost: CRCRD returns the packet's checksum and CRCUPD goes
on from it; no error is raised. The premise is the buffer's canonical form: log 7, DESIGN CHOICE. -/
def Obligations.PktbuildDestroysAStream : Prop :=
  ∀ (ts : Word32) (b : Byte) (s : State), s.pkt.wf →
    ∃ t, steps 4 (facing [.pktbuild ts, .crcrd, .crcupd b, .crcrd] s) = .next t ∧
      (let c := crc8 Config.crcTable (packetBody ts) 0x00#8
      t.rsp = s.rsp ++ [(0x00#8 ++ c : BitVec 16), (0x00#8 ++ c : BitVec 16), 0x0000#16,
        (0x00#8 ++ Config.crcTable (c ^^^ b) : BitVec 16)]) ∧
      t.err = s.err

/-! ### The time family -/

/-- R120: the hour transform, its whole map on 0..23, and the range of its result. -/
def Obligations.HourTransformMap : Prop :=
  (∀ h, hour12 false h = h) ∧
  hour12 true 0 = 12 ∧
  (∀ h, 13 ≤ h → h ≤ 23 → hour12 true h = h - 12) ∧
  (∀ h, 1 ≤ h → h ≤ 12 → hour12 true h = h) ∧
  ∀ h, 0 ≤ h → h ≤ 23 → 1 ≤ hour12 true h ∧ hour12 true h ≤ 12

/-- R121: HOUR12 answers the transformed hour and changes no state for an hour 0..23; an hour above 23
raises E_RANGE; a bit of imm[31:9] set raises E_RSVD first. -/
def Obligations.Hour12AnswersTheTransformedHour : Prop :=
  (∀ (hour : Byte) (s : State), hour.toNat ≤ 23 → exec (.hour12 false hour) s = .next (answered hour s)) ∧
  (∀ s : State, exec (.hour12 true 0x00#8) s = .next (answered 12#8 s)) ∧
  (∀ (hour : Byte) (s : State), 1 ≤ hour.toNat → hour.toNat ≤ 12 →
    exec (.hour12 true hour) s = .next (answered hour s)) ∧
  (∀ (hour : Byte) (s : State), 13 ≤ hour.toNat → hour.toNat ≤ 23 →
    exec (.hour12 true hour) s = .next (answered (hour - 12#8) s)) ∧
  (∀ (use12 : Bool) (hour : Byte) (s : State), 23 < hour.toNat →
    exec (.hour12 use12 hour) s = .next (erred 0x03#8 s)) ∧
  (∀ (use12 : Bool) (hour : Byte) (s : State),
    stepOn (0x20#8 ++ (0#23 ++ (BitVec.ofBool use12 ++ hour))) s = exec (.hour12 use12 hour) s) ∧
  ∀ (imm : Word32) (s : State), imm.extractLsb' 9 23 ≠ 0#23 →
    stepOn (0x20#8 ++ imm) s = .next (erred 0x02#8 s)

/-- R125: the integer algorithm agrees with the sum of year and month lengths, from 1970 on. -/
def Obligations.DaysFromCivilIsTheSumOfLengths : Prop :=
  ∀ y mo d : Int, 1970 ≤ y → 1 ≤ mo → mo ≤ 12 → daysFromCivil y mo d = daysBySummation y mo d

/-- R125's note on the domain: a valid date up to 1969 has a negative timestamp, one from 2107 on a
timestamp above 32 bits (before year 0 the formula's value is the model's choice, log 10). -/
def Obligations.TimestampsOutside1970To2106DoNotFit : Prop :=
  ∀ c : CivilTime, c.valid = true →
    (c.year ≤ 1969 → tsUtc8 c < 0) ∧ (2107 ≤ c.year → 4294967295 < tsUtc8 c)

/-- R126, R127: the host has a timestamp exactly when the fields are valid and the timestamp with the
transformed hour fits in 32 unsigned bits; the value is never truncated or wrapped, and in every other case
the host fails with ClockFailure. -/
def Obligations.ClockFailureExactlyOutOfRange : Prop :=
  ∀ (T : Table) (c : CivilTime) (use12 : Bool),
    let t := tsUtc8 { c with hour := hour12 use12 c.hour }
    (c.valid = true ∧ 0 ≤ t ∧ t ≤ 4294967295 → ∃ ts : Word32, (ts.toNat : Int) = t ∧
      hostStamp c use12 = .ok ts ∧ buildPacketAt T c use12 = .ok (packet T ts)) ∧
    (¬ (c.valid = true ∧ 0 ≤ t ∧ t ≤ 4294967295) →
      hostStamp c use12 = .error .clockFailure ∧ buildPacketAt T c use12 = .error .clockFailure)

/-- R128: with the 12-hour mode off, bytes 2..5 of build_packet are the four bytes of ts_utc8, most
significant first. -/
def Obligations.PacketOfACivilTimeCarriesItsTimestamp : Prop :=
  ∀ (T : Table) (c : CivilTime), c.valid = true → 0 ≤ tsUtc8 c → tsUtc8 c ≤ 4294967295 →
    ∃ p, buildPacketAt T c false = .ok p ∧
      ∃ b2 b3 b4 b5 : Byte, p[2]? = some b2 ∧ p[3]? = some b3 ∧ p[4]? = some b4 ∧ p[5]? = some b5 ∧
        (b2.toNat : Int) * 16777216 + b3.toNat * 65536 + b4.toNat * 256 + b5.toNat = tsUtc8 c

/-- R122: with the 12-hour mode on, two civil times twelve hours apart in one day give the same packet;
an hour 13..23 moves the timestamp 43200 s down, the hour after midnight 43200 s up. -/
def Obligations.HalfOfTheDayIsLost : Prop :=
  ∀ (T : Table) (c : CivilTime), c.valid = true →
    (c.hour < 12 → buildPacketAt T c true = buildPacketAt T { c with hour := c.hour + 12 } true) ∧
    (13 ≤ c.hour → tsUtc8 (c.displayed true) = tsUtc8 c - 43200) ∧
    (c.hour = 0 → tsUtc8 (c.displayed true) = tsUtc8 c + 43200) ∧
    (1 ≤ c.hour → c.hour ≤ 12 → tsUtc8 (c.displayed true) = tsUtc8 c)

/-- R9 (b), R126, R107: the commands a host issues for a civil time bring it exactly build_packet, in the
order it puts the bytes on the wire; where build_packet fails, the host issues no command. The premise is the
buffer's canonical form: log 7, DESIGN CHOICE. -/
def Obligations.HostFetchesBuildPacket : Prop :=
  ∀ (c : CivilTime) (use12 : Bool) (s : State), s.pkt.wf →
    (∀ p, buildPacketAt Config.crcTable c use12 = .ok p →
      ∃ is t, fetchPacket c use12 = .ok is ∧ steps is.length (facing is s) = .next t ∧
        ∃ first reads, t.rsp = s.rsp ++ first :: reads ∧ wireBytes reads = p) ∧
    (∀ f, buildPacketAt Config.crcTable c use12 = .error f → fetchPacket c use12 = .error f)

/-! ### The system family -/

/-- R140: NOP answers 0x0000 and changes no state; with imm != 0 it raises E_RSVD. -/
def Obligations.NopChangesNothing : Prop :=
  (∀ s : State, exec .nop s = .next (answered 0x00#8 s)) ∧
  (∀ s : State, stepOn 0x0000000000#40 s = .next (answered 0x00#8 s)) ∧
  ∀ (imm : Word32) (s : State), imm ≠ 0#32 → stepOn (0x00#8 ++ imm) s = .next (erred 0x02#8 s)

/-- R26, R24: bit 0 of STATUS is PKTV, bit 1 is 1 exactly when ERR is not 0x00, bits 7:2 read as 0. -/
def Obligations.StatusShowsPktvAndErrf : Prop :=
  ∀ s : State,
    s.status.getLsbD 0 = s.pktv ∧
    (s.status.getLsbD 1 = true ↔ s.err ≠ 0x00#8) ∧
    s.status.extractLsb' 2 6 = 0#6 ∧
    s.status ∈ [0x00#8, 0x01#8, 0x02#8, 0x03#8]

/-- R141: STAT answers {0x00, STATUS} and changes no state; with imm != 0 it raises E_RSVD. -/
def Obligations.StatAnswersTheStatus : Prop :=
  (∀ s : State, exec .stat s = .next (answered
    ((if s.pktv then 0x01#8 else 0x00#8) ||| (if s.err = 0x00#8 then 0x00#8 else 0x02#8)) s)) ∧
  (∀ s : State, stepOn 0x3000000000#40 s = exec .stat s) ∧
  ∀ (imm : Word32) (s : State), imm ≠ 0#32 → stepOn (0x30#8 ++ imm) s = .next (erred 0x02#8 s)

/-- R142: ERRRD answers {0x00, ERR} and does not clear it; with imm != 0 it raises E_RSVD. -/
def Obligations.ErrrdReadsTheErrorRegister : Prop :=
  (∀ s : State, exec .errrd s = .next (answered s.err s)) ∧
  (∀ s : State, stepOn 0x3100000000#40 s = .next (answered s.err s)) ∧
  ∀ (imm : Word32) (s : State), imm ≠ 0#32 → stepOn (0x31#8 ++ imm) s = .next (erred 0x02#8 s)

/-- R143: ERRCLR writes 0x00 to ERR, changes nothing else and answers 0x0000; with imm != 0 it raises
E_RSVD and does not clear. -/
def Obligations.ErrclrClearsTheErrorRegister : Prop :=
  (∀ s : State, exec .errclr s = .next (answered 0x00#8 { s with err := 0x00#8 })) ∧
  (∀ s : State, stepOn 0x3200000000#40 s = .next (answered 0x00#8 { s with err := 0x00#8 })) ∧
  ∀ (imm : Word32) (s : State), imm ≠ 0#32 → stepOn (0x32#8 ++ imm) s = .next (erred 0x02#8 s)

/-! ### Rules of the whole machine -/

/-- R7, R65: the step is total; the machine never stops. -/
def Obligations.EveryStepGoesOn : Prop := ∀ s : State, goesOn (step s)

/-- R25, R156: every command gives exactly one response {c, d}; c is 0x00 or a code 0x01..0x04; ERRCLR and
reset write 0x00 to ERR; every other command leaves ERR at the first error's code. -/
def Obligations.FirstErrorWins : Prop :=
  (∀ (w : CmdWord) (s t : State), stepOn w s = .next t →
    ∃ c d : Byte, t.rsp = s.rsp ++ [(c ++ d : BitVec 16)] ∧ c.toNat ≤ 4 ∧ (c ≠ 0x00#8 → d = 0x00#8) ∧
      (w = 0x3200000000#40 → t.err = 0x00#8) ∧
      (w ≠ 0x3200000000#40 → t.err = if s.err = 0x00#8 then c else s.err)) ∧
  ∀ s t : State, step { s with input := .reset :: s.input } = .next t → t.err = 0x00#8

/-- R152: a command that answers a code other than 0x00 has changed nothing but ERR; and an error left in
ERR gates no command: what a command does to ACC, PKT and PKTV, and the status it answers, do not depend on
ERR. -/
def Obligations.ErrorsArePreciseAndGateNothing : Prop :=
  (∀ (w : CmdWord) (s t : State) (c d : Byte), stepOn w s = .next t →
    t.rsp = s.rsp ++ [(c ++ d : BitVec 16)] → c ≠ 0x00#8 → t = erred c s) ∧
  ∀ (w : CmdWord) (s t : State) (e : Byte), stepOn w s = .next t →
    ∃ t', stepOn w { s with err := e } = .next t' ∧
      t'.acc = t.acc ∧ t'.pkt = t.pkt ∧ t'.pktv = t.pktv ∧
      t'.rsp.map (fun r => r.extractLsb' 8 8) = t.rsp.map (fun r => r.extractLsb' 8 8)

/-- R151: on a legal encoding every command but PKTRD completes, and PKTRD raises no error but E_NOPKT. -/
def Obligations.OnlyPktrdFailsOnALegalEncoding : Prop :=
  (∀ (i : Instr) (s : State), i.wellFormed = true → (∀ off, i ≠ .pktrd off) →
    ∃ (t : State) (d : Byte), stepOn (encode i) s = .next t ∧ t.rsp = s.rsp ++ [(0x00#8 ++ d : BitVec 16)]) ∧
  ∀ (off : Offset) (s : State), ∃ (t : State) (d : Byte), stepOn (encode (.pktrd off)) s = .next t ∧
    t.rsp = s.rsp ++ [((if s.pktv then 0x00#8 else 0x04#8) ++ d : BitVec 16)]

/-- R21: a command changes ACC only if it is CRCINIT, CRCUPD or PKTBUILD. -/
def Obligations.OnlyThreeCommandsWriteAcc : Prop :=
  ∀ (w : CmdWord) (s t : State), stepOn w s = .next t → t.acc ≠ s.acc →
    w.extractLsb' 32 8 ∈ [0x01#8, 0x02#8, 0x10#8]

/-- R24, R42: only PKTBUILD writes the packet buffer and PKTV, which no command clears: every other command
leaves each of the 64 bytes and PKTV as they were. -/
def Obligations.OnlyPktbuildWritesTheBuffer : Prop :=
  ∀ (w : CmdWord) (s t : State), stepOn w s = .next t →
    (w.extractLsb' 32 8 ≠ 0x10#8 → (∀ off : Offset, t.pkt.read off = s.pkt.read off) ∧ t.pkt = s.pkt ∧ t.pktv = s.pktv) ∧
    (w.extractLsb' 32 8 = 0x10#8 → t.pktv = true)

/-- R29: everything a later command can observe is in the tuple (ACC, PKT, PKTV, ERR): two states that
agree on it answer every command alike and agree again afterwards. -/
def Obligations.NothingIsHiddenBesideTheTuple : Prop :=
  ∀ (w : CmdWord) (s₁ s₂ t₁ : State),
    s₁.acc = s₂.acc → s₁.pkt = s₂.pkt → s₁.pktv = s₂.pktv → s₁.err = s₂.err → stepOn w s₁ = .next t₁ →
    ∃ t₂ r, stepOn w s₂ = .next t₂ ∧ t₁.rsp = s₁.rsp ++ [r] ∧ t₂.rsp = s₂.rsp ++ [r] ∧
      t₁.acc = t₂.acc ∧ t₁.pkt = t₂.pkt ∧ t₁.pktv = t₂.pktv ∧ t₁.err = t₂.err

/-- R8, R181, R188: over any sequence of events the block consumes them in order, gives exactly one
response per command and none per reset. -/
def Obligations.OneResponsePerCommand : Prop :=
  ∀ (events : List HostEvent) (s : State),
    ∃ t, steps events.length { s with input := events ++ s.input } = .next t ∧ t.input = s.input ∧
      ∃ new, t.rsp = s.rsp ++ new ∧ new.length = (events.filter (fun e => e ≠ .reset)).length

/-- R180, R181: the state at power-on, and after a reset event from every state, is the one the table gives;
the event produces no response. -/
def Obligations.ResetGivesTheStatedValues : Prop :=
  (State.reset.acc = 0x00#8 ∧ (∀ off : Offset, State.reset.pkt.read off = 0x00#8) ∧
    State.reset.pktv = false ∧ State.reset.err = 0x00#8 ∧ State.reset.status = 0x00#8) ∧
  ∀ s : State, ∃ t, step { s with input := .reset :: s.input } = .next t ∧
    t.acc = 0x00#8 ∧ (∀ off : Offset, t.pkt.read off = 0x00#8) ∧ t.pktv = false ∧ t.err = 0x00#8 ∧
    t.status = 0x00#8 ∧ t.rsp = s.rsp

/-- R30 with the buffer's canonical form: every step keeps it, from every state that has it. -/
def Obligations.StepKeepsTheStateInvariant : Prop :=
  ∀ s t : State, s.Inv → step s = .next t → t.Inv

/-- The reset state has the invariant. -/
def Obligations.ResetHasTheStateInvariant : Prop := State.reset.Inv

/-- R30: in every reachable state ERR is one of 0x00..0x04; while PKTV = 0 every byte of PKT is 0x00; once
PKTV = 1 the packet invariants of R101 hold of PKT. -/
def Obligations.ReachableStatesSatisfyTheInvariants : Prop :=
  ∀ s : State, Reachable s →
    s.err ∈ [0x00#8, 0x01#8, 0x02#8, 0x03#8, 0x04#8] ∧
    (s.pktv = false → ∀ i : Offset, s.pkt.read i = 0x00#8) ∧
    (s.pktv = true →
      s.pkt.read 0#6 = 0x01#8 ∧ s.pkt.read 1#6 = 0x03#8 ∧
      (∀ i : Offset, 6 ≤ i.toNat → i.toNat ≤ 62 → s.pkt.read i = 0x00#8) ∧
      s.pkt.read 63#6 = crc8 Config.crcTable ((offsetsFrom 0 63).map s.pkt.read) 0x00#8)

/-! ### The assembler and the table generators -/

/-- R70: each operand form assembles to the word its row shows, and an operand outside the range shown is
refused. -/
def Obligations.AssemblerEncodesOperandsInRange : Prop :=
  ∀ n u : Nat,
    (assembleStatement .crcinit [n] = if n ≤ 255 then .ok [BitVec.ofNat 40 (0x0100000000 + n)] else .error .operandRange) ∧
    (assembleStatement .crcupd [n] = if n ≤ 255 then .ok [BitVec.ofNat 40 (0x0200000000 + n)] else .error .operandRange) ∧
    (assembleStatement .pktbuild [n] =
      if n ≤ 0xFFFFFFFF then .ok [BitVec.ofNat 40 (0x1000000000 + n)] else .error .operandRange) ∧
    (assembleStatement .pktrd [n] = if n ≤ 63 then .ok [BitVec.ofNat 40 (0x1100000000 + n)] else .error .operandRange) ∧
    (assembleStatement .hour12 [u, n] =
      if u ≤ 1 ∧ n ≤ 23 then .ok [BitVec.ofNat 40 (0x2000000000 + u * 256 + n)] else .error .operandRange) ∧
    (assembleStatement .word [n] = if n < 2 ^ 40 then .ok [BitVec.ofNat 40 n] else .error .operandRange)

/-- G4 of spec/93_implementation_defined.md: a table made by G3's generators maps 0 to 0 and is linear over
exclusive-or.  This is about the optional generators; nothing of the kind is assumed of CRC_TABLE. -/
def Obligations.GeneratedTablesAreLinear : Prop :=
  ∀ P a b : Byte,
    tableMsb P 0x00#8 = 0x00#8 ∧ tableMsb P (a ^^^ b) = tableMsb P a ^^^ tableMsb P b ∧
    tableLsb P 0x00#8 = 0x00#8 ∧ tableLsb P (a ^^^ b) = tableLsb P a ^^^ tableLsb P b
end

