-- ==== Sys2Proof/Laws/Crc.lean ====
section
/-! SUPPORT. The equations of the update step and of the checksum (spec/40_crc.md R80, R81). -/

namespace Sys2Proof.Machine

theorem upd_eq (T : Table) (a b : Byte) : upd T a b = T (a ^^^ b) := rfl

/-- Absorbing a zero byte applies the table once (R102). -/
theorem upd_zero (T : Table) (a : Byte) : upd T a 0x00#8 = T a := by rw [upd_eq, BitVec.xor_zero]

theorem crc8_cons (T : Table) (b : Byte) (d : List Byte) (k : Byte) : crc8 T (b :: d) k = crc8 T d (upd T k b) := rfl

/-- `n` zero bytes apply the table `n` times (R102). -/
theorem crc8_zeros (T : Table) (n : Nat) (k : Byte) : crc8 T (List.replicate n 0x00#8) k = T^[n] k := by
  induction n generalizing k with
  | zero => rfl
  | succ n ih => rw [List.replicate_succ, crc8_cons, ih, upd_zero, Function.iterate_succ_apply]

end Sys2Proof.Machine
end

