-- ==== Sys2Proof/Laws/Decode.lean ====
section
/-! SUPPORT. The fields of a word, what a masked word says of them, and what the decoder can answer. -/

namespace Sys2Proof

/-! ### Fields -/

@[simp] theorem opField_cmdWord (op : Byte) (imm : Word32) : opField (cmdWord op imm) = op :=
  BitVec.extractLsb'_append_eq_left

@[simp] theorem immField_cmdWord (op : Byte) (imm : Word32) : immField (cmdWord op imm) = imm :=
  BitVec.extractLsb'_append_eq_right

/-- A word is its two fields (R60). -/
@[simp] theorem cmdWord_fields (w : CmdWord) : cmdWord (opField w) (immField w) = w := by
  refine BitVec.eq_of_getLsbD_eq fun i hi => ?_
  simp only [cmdWord, opField, immField, BitVec.getLsbD_append, BitVec.getLsbD_extractLsb']
  by_cases h : i < 32
  · simp [h]
  · have h8 : i - 32 < 8 := by omega
    simp [h, h8, Nat.add_sub_cancel' (Nat.le_of_not_lt h)]

theorem cmdWord_inj {op op' : Byte} {imm imm' : Word32} :
    cmdWord op imm = cmdWord op' imm' ↔ op = op' ∧ imm = imm' := by
  refine ⟨fun h => ⟨?_, ?_⟩, fun ⟨h, h'⟩ => by rw [h, h']⟩
  · simpa using congrArg opField h
  · simpa using congrArg immField h

/-- A mask acts field by field. -/
theorem cmdWord_and (op m : Byte) (imm n : Word32) : cmdWord op imm &&& cmdWord m n = cmdWord (op &&& m) (imm &&& n) :=
  BitVec.and_append

/-! ### Reserved bits -/

/-- Masking off the low `k` bits of `imm` leaves zero exactly when `imm` is a `k`-bit number. -/
theorem and_highMask_eq_zero (imm : Word32) (k : Nat) :
    imm &&& (BitVec.allOnes 32 <<< k) = 0#32 ↔ imm.toNat < 2 ^ k := by
  constructor
  · intro h
    refine Nat.lt_pow_two_of_testBit _ fun i hi => ?_
    by_cases h32 : i < 32
    · have := congrArg (fun v : Word32 => v.getLsbD i) h
      rw [BitVec.testBit_toNat]
      simpa only [BitVec.getLsbD_and, BitVec.getLsbD_shiftLeft, BitVec.getLsbD_allOnes, h32, Nat.not_lt.mpr hi,
        show i - k < 32 by omega, decide_true, decide_false, Bool.not_false, Bool.and_true,
        BitVec.getLsbD_zero] using this
    · exact BitVec.getLsbD_of_ge imm i (Nat.le_of_not_lt h32)
  · intro h
    refine BitVec.eq_of_getLsbD_eq fun i hi => ?_
    simp only [BitVec.getLsbD_and, BitVec.getLsbD_shiftLeft, BitVec.getLsbD_zero]
    by_cases hik : i < k
    · simp [hik]
    · have : imm.getLsbD i = false :=
        Nat.testBit_lt_two_pow (Nat.lt_of_lt_of_le h (Nat.pow_le_pow_right (by decide) (Nat.le_of_not_lt hik)))
      simp [this]

/-- The high field of `imm` above bit `k` is zero exactly when `imm` is a `k`-bit number. -/
theorem extract_high_eq_zero (imm : Word32) (k n : Nat) (h : 32 ≤ k + n) :
    imm.extractLsb' k n = 0#n ↔ imm.toNat < 2 ^ k := by
  rw [← BitVec.toNat_inj, BitVec.extractLsb'_toNat, BitVec.toNat_ofNat, Nat.zero_mod, Nat.shiftRight_eq_div_pow]
  have hlt : imm.toNat / 2 ^ k < 2 ^ n := by
    rw [Nat.div_lt_iff_lt_mul (Nat.two_pow_pos k), ← Nat.pow_add, Nat.add_comm n k]
    exact Nat.lt_of_lt_of_le imm.isLt (Nat.pow_le_pow_right (by decide) h)
  rw [Nat.mod_eq_of_lt hlt, Nat.div_eq_zero_iff]
  simp

theorem and_allOnes_eq_zero (imm : Word32) : imm &&& 0xFFFFFFFF#32 = 0#32 ↔ imm = 0#32 := by
  rw [show (0xFFFFFFFF#32) = BitVec.allOnes 32 from rfl, BitVec.and_allOnes]

theorem and_reservedByte_eq_zero (imm : Word32) : imm &&& 0xFFFFFF00#32 = 0#32 ↔ imm.toNat ≤ 0xFF := by
  rw [show (0xFFFFFF00#32) = BitVec.allOnes 32 <<< 8 by decide, and_highMask_eq_zero, show 2 ^ 8 = 0xFF + 1 from rfl,
    Nat.lt_succ_iff]

theorem and_reservedOffset_eq_zero (imm : Word32) : imm &&& 0xFFFFFFC0#32 = 0#32 ↔ imm.toNat ≤ 63 := by
  rw [show (0xFFFFFFC0#32) = BitVec.allOnes 32 <<< 6 by decide, and_highMask_eq_zero, show 2 ^ 6 = 63 + 1 from rfl,
    Nat.lt_succ_iff]

theorem and_reservedHour_eq_zero (imm : Word32) : imm &&& 0xFFFFFE00#32 = 0#32 ↔ imm.toNat ≤ 0x1FF := by
  rw [show (0xFFFFFE00#32) = BitVec.allOnes 32 <<< 9 by decide, and_highMask_eq_zero, show 2 ^ 9 = 0x1FF + 1 from rfl,
    Nat.lt_succ_iff]

/-! ### What the decoder can answer -/

/-- The row of a word's opcode, if its opcode is defined. -/
theorem decode_of_row {w : CmdWord} {row : OpcodeRow}
    (h : opcodeRows.find? (fun row => row.op == opField w) = some row) :
    decode w = if immField w &&& row.reserved = 0#32 then .ok (row.build (immField w)) else .error .rsvd := by
  simp only [decode, h]

/-- A decoded command: its row is in the table, has the word's opcode, and none of its reserved bits is set. -/
theorem decode_eq_ok {w : CmdWord} {i : Instr} (h : decode w = .ok i) :
    ∃ row ∈ opcodeRows, row.op = opField w ∧ immField w &&& row.reserved = 0#32 ∧ row.build (immField w) = i := by
  unfold decode at h
  split at h
  · cases h
  · next row hrow =>
    split at h
    · next hres =>
      exact ⟨row, List.mem_of_find?_eq_some hrow, by simpa using List.find?_some hrow, hres,
        by injection h⟩
    · cases h

/-- The decoder raises E_ILLOP or E_RSVD and no other error (R65). -/
theorem decode_eq_error {w : CmdWord} {e : ErrCode} (h : decode w = .error e) : e = .illop ∨ e = .rsvd := by
  unfold decode at h
  split at h
  · exact .inl (by injection h with h; exact h.symm)
  · split at h
    · cases h
    · exact .inr (by injection h with h; exact h.symm)

/-- E_ILLOP is raised exactly for an opcode that no row has (R66). -/
theorem decode_eq_illop (w : CmdWord) : decode w = .error .illop ↔ ∀ row ∈ opcodeRows, row.op ≠ opField w := by
  unfold decode
  split
  · next h => simpa using List.find?_eq_none.mp h
  · next row h =>
    have h' := List.find?_some h
    refine ⟨fun he => ?_, fun hall => absurd (by simpa using h') (hall row (List.mem_of_find?_eq_some h))⟩
    split at he <;> cases he

/-! ### A word given by its fields -/

/-- A word of a row: the row's command, or E_RSVD. -/
theorem decode_cmdWord_of_row {op : Byte} {row : OpcodeRow} (imm : Word32)
    (h : opcodeRows.find? (fun row => row.op == op) = some row) :
    decode (cmdWord op imm) = if imm &&& row.reserved = 0#32 then .ok (row.build imm) else .error .rsvd := by
  rw [decode_of_row (row := row) (by rw [opField_cmdWord]; exact h), immField_cmdWord]

/-- No two rows of the opcode table match a common word (R64, R68). -/
theorem opcodeRows_disjoint :
    opcodeRows.Pairwise fun r q => (r.pattern ^^^ q.pattern) &&& r.mask &&& q.mask ≠ 0#40 := by decide

/-- Each row's match and mask say the same as its opcode and its reserved bits (R61, R64). -/
theorem opcodeRows_masks :
    ∀ row ∈ opcodeRows, row.pattern = cmdWord row.op 0#32 ∧ row.mask = cmdWord 0xFF#8 row.reserved := by decide

/-- A word matches a row exactly when it has the row's opcode and none of its reserved bits. -/
theorem matches_iff {row : OpcodeRow} (h : row ∈ opcodeRows) (op : Byte) (imm : Word32) :
    cmdWord op imm &&& row.mask = row.pattern ↔ op = row.op ∧ imm &&& row.reserved = 0#32 := by
  obtain ⟨hp, hm⟩ := opcodeRows_masks row h
  rw [hp, hm, cmdWord_and, cmdWord_inj, show (0xFF#8) = BitVec.allOnes 8 from rfl, BitVec.and_allOnes]

/-! ### The operand fields of an operand field -/

@[simp] theorem byteOperand_setWidth (b : Byte) : byteOperand (b.setWidth 32) = b := by
  refine BitVec.eq_of_getLsbD_eq fun i hi => ?_
  simp [byteOperand, hi, show i < 32 by omega]

@[simp] theorem offsetOperand_setWidth (off : Offset) : offsetOperand (off.setWidth 32) = off := by
  refine BitVec.eq_of_getLsbD_eq fun i hi => ?_
  simp [offsetOperand, hi, show i < 32 by omega]

@[simp] theorem byteOperand_hourWord (u : Bool) (h : Byte) :
    byteOperand ((BitVec.ofBool u ++ h).setWidth 32) = h := by
  revert u h; decide

@[simp] theorem use12Operand_hourWord (u : Bool) (h : Byte) :
    use12Operand ((BitVec.ofBool u ++ h).setWidth 32) = u := by
  revert u h; decide

/-- A byte operand stands alone in `imm` when the reserved bits are zero. -/
theorem setWidth_byteOperand {imm : Word32} (h : imm.toNat ≤ 0xFF) : (byteOperand imm).setWidth 32 = imm := by
  refine BitVec.eq_of_toNat_eq ?_
  simp only [byteOperand, BitVec.toNat_setWidth, BitVec.extractLsb'_toNat, Nat.shiftRight_zero]
  omega

theorem setWidth_offsetOperand {imm : Word32} (h : imm.toNat ≤ 63) : (offsetOperand imm).setWidth 32 = imm := by
  refine BitVec.eq_of_toNat_eq ?_
  simp only [offsetOperand, BitVec.toNat_setWidth, BitVec.extractLsb'_toNat, Nat.shiftRight_zero]
  omega

/-- The number that a 9-bit operand field of HOUR12 is. -/
theorem toNat_hourWord (imm : Word32) :
    (BitVec.ofBool (use12Operand imm) ++ byteOperand imm).toNat = imm.toNat % 512 := by
  have hu : (use12Operand imm).toNat = imm.toNat / 256 % 2 := by
    rw [use12Operand, BitVec.getLsbD, Nat.testBit_eq_decide_div_mod_eq]
    have h2 : imm.toNat / 2 ^ 8 % 2 = 0 ∨ imm.toNat / 2 ^ 8 % 2 = 1 := by omega
    rcases h2 with h2 | h2 <;> simp only [h2] <;> simp_all
  have hb : (byteOperand imm).toNat = imm.toNat % 256 := by
    simp only [byteOperand, BitVec.extractLsb'_toNat, Nat.shiftRight_zero]
  rw [BitVec.toNat_append, BitVec.toNat_ofBool, hu, hb, ← Nat.shiftLeft_add_eq_or_of_lt (by omega),
    Nat.shiftLeft_eq]
  omega

theorem setWidth_hourWord {imm : Word32} (h : imm.toNat ≤ 0x1FF) :
    (BitVec.ofBool (use12Operand imm) ++ byteOperand imm).setWidth 32 = imm := by
  refine BitVec.eq_of_toNat_eq ?_
  rw [BitVec.toNat_setWidth, toNat_hourWord]
  omega

end Sys2Proof
end

