-- ==== Sys2Proof/Laws/Memory.lean ====
section
/-! SUPPORT. The laws of the packet buffer's memory: read after write, the canonical form, and that a
canonical memory is determined by what it reads as (log 7). -/

namespace Sys2Proof.Machine

/-! ### Cells -/

/-- A cell number below every listed one reads as unlisted. -/
theorem Memory.get_of_lt (m : Memory) (k : Nat) (h : ∀ c ∈ m, k < c.1) : m.get k = Memory.unlisted := by
  induction m with
  | nil => rfl
  | cons c rest ih =>
    have hc := h c (by simp)
    simp only [Memory.get, if_neg (Nat.ne_of_gt hc)]
    exact ih fun d hd => h d (by simp [hd])

theorem Memory.get_cons (m : Memory) (k j : Nat) (v : Byte) (h : ∀ c ∈ m, k < c.1) :
    (Memory.cons k v m).get j = if j = k then v else m.get j := by
  unfold Memory.cons
  split
  · next hv =>
    split
    · next hj => rw [hj, m.get_of_lt k h, hv]
    · rfl
  · simp only [Memory.get, eq_comm]

theorem Memory.mem_cons {m : Memory} {k : Nat} {v : Byte} {c : Host.Cell} (h : c ∈ Memory.cons k v m) :
    (c = (k, v) ∧ v ≠ Memory.unlisted) ∨ c ∈ m := by
  unfold Memory.cons at h
  split at h
  · exact .inr h
  · next hv => exact (List.mem_cons.mp h).imp (⟨·, hv⟩) id

theorem Memory.mem_put {m : Memory} {k : Nat} {v : Byte} {c : Host.Cell} (h : c ∈ m.put k v) :
    (c = (k, v) ∧ v ≠ Memory.unlisted) ∨ c ∈ m := by
  induction m with
  | nil => exact Memory.mem_cons h
  | cons d rest ih =>
    unfold Memory.put at h
    split at h
    · exact Memory.mem_cons h
    · split at h
      · exact (Memory.mem_cons h).imp_right (List.mem_cons_of_mem _)
      · rcases List.mem_cons.mp h with h | h
        · exact .inr (by simp [h])
        · exact (ih h).imp_right (List.mem_cons_of_mem _)

/-- Read after write, on cells: the cell written reads as what was written, every other as before. -/
theorem Memory.get_put (m : Memory) (k j : Nat) (v : Byte)
    (h : m.Pairwise fun c d => c.1 < d.1) :
    (m.put k v).get j = if j = k then v else m.get j := by
  induction m with
  | nil => exact Memory.get_cons [] k j v (by simp)
  | cons c rest ih =>
    obtain ⟨hc, hrest⟩ := List.pairwise_cons.mp h
    unfold Memory.put
    split
    · next hk =>
      refine Memory.get_cons _ k j v fun d hd => ?_
      rcases List.mem_cons.mp hd with rfl | hd
      · exact hk
      · exact Nat.lt_trans hk (hc d hd)
    · split
      · next hk =>
        subst hk
        rw [Memory.get_cons rest _ j v hc]
        by_cases hj : j = c.1
        · simp [hj]
        · simp [hj, Memory.get, Ne.symm hj]
      · next hk =>
        simp only [Memory.get, ih hrest]
        by_cases hj : c.1 = j
        · subst hj; simp [Ne.symm hk]
        · simp [hj]

theorem Memory.wf_cons {m : Memory} {k : Nat} {v : Byte} (hm : m.wf) (hk : k < Memory.size)
    (h : ∀ c ∈ m, k < c.1) : (Memory.cons k v m).wf := by
  unfold Memory.cons
  split
  · exact hm
  · next hv =>
    refine ⟨List.pairwise_cons.mpr ⟨h, hm.1⟩, fun c hc => ?_⟩
    rcases List.mem_cons.mp hc with rfl | hc
    · exact ⟨hk, hv⟩
    · exact hm.2 c hc

theorem Memory.wf_tail {c : Host.Cell} {rest : Memory} (h : Memory.wf (c :: rest)) : Memory.wf rest :=
  ⟨(List.pairwise_cons.mp h.1).2, fun d hd => h.2 d (List.mem_cons_of_mem _ hd)⟩

/-- Every write inside the space keeps the canonical form. -/
theorem Memory.wf_put {m : Memory} (k : Nat) (v : Byte) (hm : m.wf) (hk : k < Memory.size) :
    (m.put k v).wf := by
  induction m with
  | nil => exact Memory.wf_cons hm hk (by simp)
  | cons c rest ih =>
    obtain ⟨hc, -⟩ := List.pairwise_cons.mp hm.1
    have hrest := Memory.wf_tail hm
    unfold Memory.put
    split
    · next hlt =>
      refine Memory.wf_cons hm hk fun d hd => ?_
      rcases List.mem_cons.mp hd with rfl | hd
      · exact hlt
      · exact Nat.lt_trans hlt (hc d hd)
    · split
      · next heq => exact Memory.wf_cons hrest hk fun d hd => heq ▸ hc d hd
      · next hlt hne =>
        have hput := ih hrest
        refine ⟨List.pairwise_cons.mpr ⟨fun d hd => ?_, hput.1⟩, fun d hd => ?_⟩
        · rcases Memory.mem_put hd with ⟨rfl, -⟩ | hd
          · show c.1 < k
            have h1 : ¬ k < c.1 := hlt
            have h2 : ¬ k = c.1 := hne
            omega
          · exact hc d hd
        · rcases List.mem_cons.mp hd with rfl | hd
          · exact hm.2 _ (by simp)
          · exact hput.2 d hd

/-- A memory in canonical form lists the cells that do not read as unlisted. -/
theorem Memory.mem_iff {m : Memory} (hm : m.wf) (c : Host.Cell) :
    c ∈ m ↔ m.get c.1 = c.2 ∧ c.2 ≠ Memory.unlisted := by
  induction m with
  | nil => simp [Memory.get, eq_comm]
  | cons d rest ih =>
    obtain ⟨hd, -⟩ := List.pairwise_cons.mp hm.1
    have hrest := ih (Memory.wf_tail hm)
    have hdu := (hm.2 d (by simp)).2
    simp only [List.mem_cons, Memory.get]
    by_cases hcd : d.1 = c.1
    · rw [if_pos hcd]
      constructor
      · rintro (rfl | hc)
        · exact ⟨rfl, hdu⟩
        · exact absurd hcd (Nat.ne_of_lt (hd c hc))
      · rintro ⟨h1, -⟩
        exact .inl (Prod.ext hcd.symm h1.symm)
    · rw [if_neg hcd, ← hrest]
      exact ⟨fun h => h.resolve_left fun h => hcd (by rw [h]), .inr⟩

/-- Memories in canonical form that read alike are equal data. -/
theorem Memory.ext_get {m n : Memory} (hm : m.wf) (hn : n.wf) (h : ∀ k, m.get k = n.get k) : m = n := by
  have hmem : ∀ c, c ∈ m ↔ c ∈ n := fun c => by rw [Memory.mem_iff hm, Memory.mem_iff hn, h]
  have hnd : ∀ {l : Memory}, l.wf → l.Nodup := fun hl =>
    hl.1.imp fun hlt he => absurd (congrArg Prod.fst he) (Nat.ne_of_lt hlt)
  exact ((List.perm_ext_iff_of_nodup (hnd hm) (hnd hn)).mpr hmem).eq_of_pairwise
    (fun a b _ _ h1 h2 => absurd h1 (Nat.lt_asymm h2)) hm.1 hn.1

/-- Outside the space a canonical memory lists nothing. -/
theorem Memory.get_outside {m : Memory} (hm : m.wf) {k : Nat} (hk : Memory.size ≤ k) :
    m.get k = Memory.unlisted := by
  by_contra hne
  exact absurd ((hm.2 _ ((Memory.mem_iff hm (k, m.get k)).mpr ⟨rfl, hne⟩)).1) (Nat.not_lt.mpr hk)

/-! ### Offsets -/

theorem Memory.offset_lt_size (off : Offset) : off.toNat < Memory.size := off.isLt

/-- R42: a byte written reads back, and every other byte reads as before. -/
theorem Memory.read_write {m : Memory} (hm : m.wf) (a b : Offset) (v : Byte) :
    (m.write a v).read b = if b = a then v else m.read b := by
  unfold Memory.read Memory.write
  rw [Memory.get_put m _ _ v hm.1]
  simp only [BitVec.toNat_inj]

/-- Every write keeps the canonical form. -/
theorem Memory.wf_write {m : Memory} (hm : m.wf) (a : Offset) (v : Byte) : (m.write a v).wf :=
  Memory.wf_put _ v hm (Memory.offset_lt_size a)

/-- Memories in canonical form that read alike at every offset are equal. -/
theorem Memory.ext_read {m n : Memory} (hm : m.wf) (hn : n.wf) (h : ∀ off, m.read off = n.read off) :
    m = n := by
  refine Memory.ext_get hm hn fun k => ?_
  by_cases hk : k < Memory.size
  · have := h (BitVec.ofNat 6 k)
    simpa only [Memory.read, BitVec.toNat_ofNat, Nat.mod_eq_of_lt (show k < 2 ^ 6 from hk)] using this
  · rw [Memory.get_outside hm (Nat.le_of_not_lt hk), Memory.get_outside hn (Nat.le_of_not_lt hk)]

/-- Every list of writes keeps the canonical form. -/
theorem Memory.wf_writeEach {m : Memory} (hm : m.wf) (ws : List (Offset × Byte)) : (m.writeEach ws).wf := by
  induction ws generalizing m with
  | nil => exact hm
  | cons w ws ih => exact ih (Memory.wf_write hm w.1 w.2)

/-- An offset that no write of the list names reads as before. -/
theorem Memory.read_writeEach_of_not_mem {m : Memory} (hm : m.wf) (ws : List (Offset × Byte)) (b : Offset)
    (h : ∀ w ∈ ws, w.1 ≠ b) : (m.writeEach ws).read b = m.read b := by
  induction ws generalizing m with
  | nil => rfl
  | cons w ws ih =>
    have := ih (Memory.wf_write hm w.1 w.2) fun x hx => h x (List.mem_cons_of_mem _ hx)
    rw [show m.writeEach (w :: ws) = (m.write w.1 w.2).writeEach ws from rfl, this, Memory.read_write hm,
      if_neg (Ne.symm (h w (by simp)))]

/-- Writing one value at several offsets: those read as the value, the others as before. -/
theorem Memory.read_fill {m : Memory} (hm : m.wf) (offs : List Offset) (v : Byte) (b : Offset) :
    (m.writeEach (offs.map fun i => (i, v))).read b = if b ∈ offs then v else m.read b := by
  induction offs generalizing m with
  | nil => simp [Memory.writeEach]
  | cons a offs ih =>
    have := ih (Memory.wf_write hm a v)
    simp only [List.map_cons]
    rw [show m.writeEach ((a, v) :: offs.map fun i => (i, v)) =
      (m.write a v).writeEach (offs.map fun i => (i, v)) from rfl, this, Memory.read_write hm]
    by_cases hb : b ∈ offs
    · simp [hb]
    · by_cases hba : b = a
      · simp [hba]
      · simp [hb, hba]

theorem Memory.wf_empty : Memory.wf [] := ⟨.nil, by simp⟩

@[simp] theorem Memory.read_empty (off : Offset) : Memory.read [] off = 0x00#8 := rfl

end Sys2Proof.Machine
end

