-- ==== Sys2Proof/Laws/State.lean ====
section
/-! SUPPORT. One lemma per field per update of the state. -/

namespace Sys2Proof.Machine

variable (s : State)

/-! ### A response -/

@[simp] theorem State.respond_acc (r : RspWord) : (s.respond r).acc = s.acc := rfl
@[simp] theorem State.respond_pkt (r : RspWord) : (s.respond r).pkt = s.pkt := rfl
@[simp] theorem State.respond_pktv (r : RspWord) : (s.respond r).pktv = s.pktv := rfl
@[simp] theorem State.respond_err (r : RspWord) : (s.respond r).err = s.err := rfl
@[simp] theorem State.respond_input (r : RspWord) : (s.respond r).input = s.input := rfl
@[simp] theorem State.respond_rsp (r : RspWord) : (s.respond r).rsp = s.rsp ++ [r] := rfl

@[simp] theorem State.complete_acc (d : Byte) : (s.complete d).acc = s.acc := rfl
@[simp] theorem State.complete_pkt (d : Byte) : (s.complete d).pkt = s.pkt := rfl
@[simp] theorem State.complete_pktv (d : Byte) : (s.complete d).pktv = s.pktv := rfl
@[simp] theorem State.complete_err (d : Byte) : (s.complete d).err = s.err := rfl
@[simp] theorem State.complete_input (d : Byte) : (s.complete d).input = s.input := rfl
@[simp] theorem State.complete_rsp (d : Byte) : (s.complete d).rsp = s.rsp ++ [okRsp d] := rfl

/-! ### Error entry and its acknowledgement -/

@[simp] theorem State.raise_acc (e : ErrCode) : (s.raise e).acc = s.acc := rfl
@[simp] theorem State.raise_pkt (e : ErrCode) : (s.raise e).pkt = s.pkt := rfl
@[simp] theorem State.raise_pktv (e : ErrCode) : (s.raise e).pktv = s.pktv := rfl
@[simp] theorem State.raise_err (e : ErrCode) :
    (s.raise e).err = if s.err = 0x00#8 then e.code else s.err := rfl
@[simp] theorem State.raise_input (e : ErrCode) : (s.raise e).input = s.input := rfl
@[simp] theorem State.raise_rsp (e : ErrCode) : (s.raise e).rsp = s.rsp ++ [rspWord e.code 0x00#8] := rfl

@[simp] theorem State.clearErr_acc : s.clearErr.acc = s.acc := rfl
@[simp] theorem State.clearErr_pkt : s.clearErr.pkt = s.pkt := rfl
@[simp] theorem State.clearErr_pktv : s.clearErr.pktv = s.pktv := rfl
@[simp] theorem State.clearErr_err : s.clearErr.err = 0x00#8 := rfl
@[simp] theorem State.clearErr_input : s.clearErr.input = s.input := rfl
@[simp] theorem State.clearErr_rsp : s.clearErr.rsp = s.rsp := rfl

/-! ### Reset -/

@[simp] theorem State.resetEvent_acc : s.resetEvent.acc = 0x00#8 := rfl
@[simp] theorem State.resetEvent_pkt : s.resetEvent.pkt = [] := rfl
@[simp] theorem State.resetEvent_pktv : s.resetEvent.pktv = false := rfl
@[simp] theorem State.resetEvent_err : s.resetEvent.err = 0x00#8 := rfl
@[simp] theorem State.resetEvent_input : s.resetEvent.input = s.input := rfl
@[simp] theorem State.resetEvent_rsp : s.resetEvent.rsp = s.rsp := rfl

/-! ### The checksum and packet units -/

@[simp] theorem State.absorb_acc (T : Table) (b : Byte) : (s.absorb T b).acc = upd T s.acc b := rfl
@[simp] theorem State.absorb_pkt (T : Table) (b : Byte) : (s.absorb T b).pkt = s.pkt := rfl
@[simp] theorem State.absorb_pktv (T : Table) (b : Byte) : (s.absorb T b).pktv = s.pktv := rfl
@[simp] theorem State.absorb_err (T : Table) (b : Byte) : (s.absorb T b).err = s.err := rfl
@[simp] theorem State.absorb_input (T : Table) (b : Byte) : (s.absorb T b).input = s.input := rfl
@[simp] theorem State.absorb_rsp (T : Table) (b : Byte) : (s.absorb T b).rsp = s.rsp := rfl

@[simp] theorem State.buildPacket_acc (T : Table) (ts : Word32) :
    (s.buildPacket T ts).acc = bufferChecksum T (zeroFill (writeFields ts s.pkt)) := by
  simp only [State.buildPacket]
@[simp] theorem State.buildPacket_pkt (T : Table) (ts : Word32) :
    (s.buildPacket T ts).pkt =
      (zeroFill (writeFields ts s.pkt)).write 63#6 (bufferChecksum T (zeroFill (writeFields ts s.pkt))) := by
  simp only [State.buildPacket]
@[simp] theorem State.buildPacket_pktv (T : Table) (ts : Word32) : (s.buildPacket T ts).pktv = true := rfl
@[simp] theorem State.buildPacket_err (T : Table) (ts : Word32) : (s.buildPacket T ts).err = s.err := rfl
@[simp] theorem State.buildPacket_input (T : Table) (ts : Word32) : (s.buildPacket T ts).input = s.input := rfl
@[simp] theorem State.buildPacket_rsp (T : Table) (ts : Word32) : (s.buildPacket T ts).rsp = s.rsp := rfl

/-! ### The host's presenting -/

@[simp] theorem State.present_acc (w : CmdWord) : (s.present w).acc = s.acc := rfl
@[simp] theorem State.present_pkt (w : CmdWord) : (s.present w).pkt = s.pkt := rfl
@[simp] theorem State.present_pktv (w : CmdWord) : (s.present w).pktv = s.pktv := rfl
@[simp] theorem State.present_err (w : CmdWord) : (s.present w).err = s.err := rfl
@[simp] theorem State.present_input (w : CmdWord) : (s.present w).input = .cmd w :: s.input := rfl
@[simp] theorem State.present_rsp (w : CmdWord) : (s.present w).rsp = s.rsp := rfl

end Sys2Proof.Machine
end

