-- ==== Sys2Proof/Laws/Packet.lean ====
section
/-! SUPPORT. The loops of PKTBUILD, one law each (spec/41_packet.md R100, R104). -/

namespace Sys2Proof.Machine

/-- An offset is in a packet loop's range exactly when it lies between its ends. -/
theorem mem_offsetsFrom {first n : Nat} (h : first + n ≤ Memory.size) (i : Offset) :
    i ∈ offsetsFrom first n ↔ first ≤ i.toNat ∧ i.toNat < first + n := by
  simp only [offsetsFrom, List.mem_map, List.mem_range'_1]
  constructor
  · rintro ⟨a, ha, rfl⟩
    rwa [BitVec.toNat_ofNat, Nat.mod_eq_of_lt (show a < 2 ^ 6 from Nat.lt_of_lt_of_le ha.2 h)]
  · exact fun hi => ⟨i.toNat, hi, BitVec.ofNat_toNat 6 i |>.trans (BitVec.setWidth_eq i)⟩

@[simp] theorem length_offsetsFrom (first n : Nat) : (offsetsFrom first n).length = n := by
  simp [offsetsFrom]

@[simp] theorem length_bytes (m : Memory) : m.bytes.length = 64 := by simp [Memory.bytes]

/-- The range 0..62 and the offset 63 make up the whole buffer. -/
theorem bytes_eq_covered (m : Memory) : m.bytes = (offsetsFrom 0 63).map m.read ++ [m.read 63#6] := rfl

@[simp] theorem take_bytes (m : Memory) : m.bytes.take 63 = (offsetsFrom 0 63).map m.read := rfl

/-- The fold over the buffer is the checksum of the bytes it reads (R104, R54). -/
theorem bufferChecksum_eq (T : Table) (m : Memory) :
    bufferChecksum T m = crc8 T ((offsetsFrom 0 63).map m.read) packetSeed := by
  simp only [bufferChecksum, crc8, List.foldl_map]

theorem wf_writeFields {m : Memory} (hm : m.wf) (ts : Word32) : (writeFields ts m).wf := by
  rw [writeFields]; exact Memory.wf_writeEach hm _

theorem wf_zeroFill {m : Memory} (hm : m.wf) : (zeroFill m).wf := by
  rw [zeroFill]; exact Memory.wf_writeEach hm _

/-- PKTBUILD leaves the buffer in canonical form. -/
theorem wf_buildPacket (T : Table) (ts : Word32) (s : State) (h : s.pkt.wf) : (s.buildPacket T ts).pkt.wf := by
  rw [State.buildPacket_pkt]
  exact Memory.wf_write (wf_zeroFill (wf_writeFields h ts)) _ _

/-- The writes of PKT[0..5] (R104). -/
theorem read_writeFields {m : Memory} (hm : m.wf) (ts : Word32) (b : Offset) :
    (writeFields ts m).read b =
      if b = 5#6 then ts.extractLsb' 0 8
      else if b = 4#6 then ts.extractLsb' 8 8
      else if b = 3#6 then ts.extractLsb' 16 8
      else if b = 2#6 then ts.extractLsb' 24 8
      else if b = 1#6 then commandId
      else if b = 0#6 then reportId
      else m.read b := by
  have h0 := Memory.wf_write hm 0#6 reportId
  have h1 := Memory.wf_write h0 1#6 commandId
  have h2 := Memory.wf_write h1 2#6 (ts.extractLsb' 24 8)
  have h3 := Memory.wf_write h2 3#6 (ts.extractLsb' 16 8)
  have h4 := Memory.wf_write h3 4#6 (ts.extractLsb' 8 8)
  rw [show writeFields ts m = (((((m.write 0#6 reportId).write 1#6 commandId).write 2#6
    (ts.extractLsb' 24 8)).write 3#6 (ts.extractLsb' 16 8)).write 4#6 (ts.extractLsb' 8 8)).write 5#6
    (ts.extractLsb' 0 8) by rw [writeFields]; rfl, Memory.read_write h4, Memory.read_write h3, Memory.read_write h2,
    Memory.read_write h1, Memory.read_write h0, Memory.read_write hm]

/-- The zero fill of PKT[6..62] (R104). -/
theorem read_zeroFill {m : Memory} (hm : m.wf) (b : Offset) :
    (zeroFill m).read b = if 6 ≤ b.toNat ∧ b.toNat ≤ 62 then 0x00#8 else m.read b := by
  rw [zeroFill, Memory.read_fill hm]
  simp only [mem_offsetsFrom (show 6 + 57 ≤ Memory.size by decide), Nat.lt_succ_iff]

/-- The buffer before its checksum byte: R100's fields and zeros, the last byte still as it was found. -/
theorem read_filled {m : Memory} (hm : m.wf) (ts : Word32) (b : Offset) (hb : b ≠ 63#6) :
    (zeroFill (writeFields ts m)).read b = ((packetBody ts)[b.toNat]?).getD 0x00#8 := by
  rw [read_zeroFill (wf_writeFields hm ts), read_writeFields hm]
  have hlt : b.toNat < 63 := by
    have h64 := b.isLt
    have h63 : b.toNat ≠ 63 := fun h => hb (BitVec.eq_of_toNat_eq h)
    omega
  by_cases h6 : 6 ≤ b.toNat
  · have hz : (packetBody ts)[b.toNat]? = some 0x00#8 := by
      simp only [packetBody, stampBytes]
      rw [show b.toNat = b.toNat - 6 + 6 by omega]
      simp only [List.cons_append, List.nil_append, List.getElem?_cons_succ]
      rw [List.getElem?_replicate, if_pos (by omega)]
    rw [if_pos ⟨h6, Nat.lt_succ_iff.mp hlt⟩, hz, Option.getD_some]
  · rw [if_neg fun h => h6 h.1]
    have hcases : b = 0#6 ∨ b = 1#6 ∨ b = 2#6 ∨ b = 3#6 ∨ b = 4#6 ∨ b = 5#6 := by bv_omega
    rcases hcases with rfl | rfl | rfl | rfl | rfl | rfl <;> rfl

/-- PKTBUILD's checksum covers exactly the packet's body (R100, R186). -/
theorem map_read_filled {m : Memory} (hm : m.wf) (ts : Word32) :
    (offsetsFrom 0 63).map (zeroFill (writeFields ts m)).read = packetBody ts := by
  have h : ∀ b ∈ offsetsFrom 0 63,
      (zeroFill (writeFields ts m)).read b = ((packetBody ts)[b.toNat]?).getD 0x00#8 := fun b hb =>
    read_filled hm ts b (by
      rintro rfl
      exact absurd ((mem_offsetsFrom (by decide) 63#6).mp hb).2 (by decide))
  rw [List.map_congr_left h]
  rfl

theorem bufferChecksum_filled (T : Table) {m : Memory} (hm : m.wf) (ts : Word32) :
    bufferChecksum T (zeroFill (writeFields ts m)) = crc8 T (packetBody ts) packetSeed := by
  rw [bufferChecksum_eq, map_read_filled hm]

/-- What PKTBUILD leaves in ACC. -/
theorem acc_buildPacket (T : Table) (ts : Word32) {s : State} (h : s.pkt.wf) :
    (s.buildPacket T ts).acc = crc8 T (packetBody ts) packetSeed := by
  rw [State.buildPacket_acc, bufferChecksum_filled T h]

/-- What PKTBUILD leaves in PKT, byte by byte. -/
theorem read_buildPacket (T : Table) (ts : Word32) {s : State} (h : s.pkt.wf) (b : Offset) :
    (s.buildPacket T ts).pkt.read b =
      if b = 63#6 then crc8 T (packetBody ts) packetSeed else ((packetBody ts)[b.toNat]?).getD 0x00#8 := by
  rw [State.buildPacket_pkt, Memory.read_write (wf_zeroFill (wf_writeFields h ts)), bufferChecksum_filled T h]
  split
  · rfl
  · next hb => exact read_filled h ts b hb

/-- What PKTBUILD leaves in PKT, as one list. -/
theorem bytes_buildPacket (T : Table) (ts : Word32) {s : State} (h : s.pkt.wf) :
    (s.buildPacket T ts).pkt.bytes = packet T ts := by
  have hbody : (offsetsFrom 0 63).map (s.buildPacket T ts).pkt.read = packetBody ts := by
    rw [← map_read_filled h ts]
    refine List.map_congr_left fun b hb => ?_
    have hne : b ≠ 63#6 := by
      rintro rfl
      exact absurd ((mem_offsetsFrom (by decide) 63#6).mp hb).2 (by decide)
    rw [read_buildPacket T ts h, if_neg hne, read_filled h ts b hne]
  rw [bytes_eq_covered, hbody, read_buildPacket T ts h, if_pos rfl, packet]

end Sys2Proof.Machine
end

