-- ==== Sys2Proof/Laws/PerInstr.lean ====
section
/-! SUPPORT. Facts of every command as syntax, one lemma per constructor. -/

namespace Sys2Proof.Laws

/-- The encoded word matches a row of R64's table, and that row's operand sub-fields give the command back. -/
def EncodedFields.Statement (i : Instr) : Prop :=
  ∃ row ∈ opcodeRows, encode i &&& row.mask = row.pattern ∧ row.build (immField (encode i)) = i

/-- A command whose encoding is a row's opcode with no reserved bit set. -/
theorem encodedFields_of_row {i : Instr} {imm : Word32} (row : OpcodeRow) (hrow : row ∈ opcodeRows)
    (henc : encode i = cmdWord row.op imm) (hres : imm &&& row.reserved = 0#32) (hbuild : row.build imm = i) :
    EncodedFields.Statement i :=
  ⟨row, hrow, by rw [henc, matches_iff hrow]; exact ⟨rfl, hres⟩, by rw [henc, immField_cmdWord, hbuild]⟩

theorem EncodedFields.nop : EncodedFields.Statement .nop :=
  encodedFields_of_row opcodeRows[0] (List.getElem_mem _) rfl (by decide) rfl

theorem EncodedFields.crcinit (init : Byte) : EncodedFields.Statement (.crcinit init) :=
  encodedFields_of_row opcodeRows[1] (List.getElem_mem _) rfl
    ((and_reservedByte_eq_zero _).mpr (by rw [BitVec.toNat_setWidth]; omega)) (by simp [opcodeRows])

theorem EncodedFields.crcupd (byte : Byte) : EncodedFields.Statement (.crcupd byte) :=
  encodedFields_of_row opcodeRows[2] (List.getElem_mem _) rfl
    ((and_reservedByte_eq_zero _).mpr (by rw [BitVec.toNat_setWidth]; omega)) (by simp [opcodeRows])

theorem EncodedFields.crcrd : EncodedFields.Statement .crcrd :=
  encodedFields_of_row opcodeRows[3] (List.getElem_mem _) rfl (by decide) rfl

theorem EncodedFields.pktbuild (ts : Word32) : EncodedFields.Statement (.pktbuild ts) :=
  encodedFields_of_row opcodeRows[4] (List.getElem_mem _) rfl (BitVec.and_zero ..) rfl

theorem EncodedFields.pktrd (off : Offset) : EncodedFields.Statement (.pktrd off) :=
  encodedFields_of_row opcodeRows[5] (List.getElem_mem _) rfl
    ((and_reservedOffset_eq_zero _).mpr (by rw [BitVec.toNat_setWidth]; omega)) (by simp [opcodeRows])

theorem EncodedFields.hour12 (use12 : Bool) (hour : Byte) : EncodedFields.Statement (.hour12 use12 hour) :=
  encodedFields_of_row opcodeRows[6] (List.getElem_mem _) rfl
    ((and_reservedHour_eq_zero _).mpr (by
      have := (BitVec.ofBool use12 ++ hour).isLt
      rw [BitVec.toNat_setWidth]; omega)) (by simp [opcodeRows])

theorem EncodedFields.stat : EncodedFields.Statement .stat :=
  encodedFields_of_row opcodeRows[7] (List.getElem_mem _) rfl (by decide) rfl

theorem EncodedFields.errrd : EncodedFields.Statement .errrd :=
  encodedFields_of_row opcodeRows[8] (List.getElem_mem _) rfl (by decide) rfl

theorem EncodedFields.errclr : EncodedFields.Statement .errclr :=
  encodedFields_of_row opcodeRows[9] (List.getElem_mem _) rfl (by decide) rfl

end Sys2Proof.Laws
end

