-- ==== Sys2Proof/Laws/Step.lean ====
section
/-! SUPPORT. What one step can do, said once: the four cases of an event, the two cases of a command word,
and what each meaning answers; and the induction over the steps of a run. -/

namespace Sys2Proof.Machine

/-! ### The step -/

theorem step_idle {s : State} (h : s.input = []) : step s = .next s := by
  simp only [step, advance, State.nextEvent, h]

theorem step_cmd {s : State} {w : CmdWord} {rest : List HostEvent} (h : s.input = .cmd w :: rest) :
    step s = runCommand w { s with input := rest } := by
  simp only [step, advance, State.nextEvent, h, runEvent]

theorem step_reset {s : State} {rest : List HostEvent} (h : s.input = .reset :: rest) :
    step s = .next { s with input := rest }.resetEvent := by
  simp only [step, advance, State.nextEvent, h, runEvent]

/-- A presented word, then everything presented before, as one step. -/
theorem step_cmd_cons (w : CmdWord) (s : State) : step { s with input := .cmd w :: s.input } = runCommand w s := rfl

theorem runCommand_ok {w : CmdWord} {i : Instr} (h : decode w = .ok i) (s : State) :
    runCommand w s = exec i s := by simp only [runCommand, h]

theorem runCommand_error {w : CmdWord} {e : ErrCode} (h : decode w = .error e) (s : State) :
    runCommand w s = .next (s.raise e) := by simp only [runCommand, h]

/-- Everything a command word can do. -/
theorem runCommand_cases (w : CmdWord) (s : State) :
    (∃ i, decode w = .ok i ∧ runCommand w s = exec i s) ∨
    (∃ e, (e = .illop ∨ e = .rsvd) ∧ decode w = .error e ∧ runCommand w s = .next (s.raise e)) := by
  cases h : decode w with
  | ok i => exact .inl ⟨i, rfl, runCommand_ok h s⟩
  | error e => exact .inr ⟨e, decode_eq_error h, rfl, runCommand_error h s⟩

/-! ### The meanings -/

/-- What a command completes with: the state it leaves, before its response, and the data byte. -/
def completion (s : State) : Instr → State × Byte
  | .nop => (s, 0x00#8)
  | .crcinit init => ({ s with acc := init }, 0x00#8)
  | .crcupd byte => (s.absorb Config.crcTable byte, 0x00#8)
  | .crcrd => (s, s.acc)
  | .pktbuild ts => (s.buildPacket Config.crcTable ts, (s.buildPacket Config.crcTable ts).acc)
  | .pktrd off => (s, s.pkt.read off)
  | .hour12 use12 hour => (s, BitVec.ofInt 8 (hour12 use12 hour.toNat))
  | .stat => (s, s.status)
  | .errrd => (s, s.err)
  | .errclr => (s.clearErr, 0x00#8)

/-- Everything a meaning can do: complete, raise E_NOPKT for a PKTRD before any build, or raise E_RANGE for a
HOUR12 above 23. -/
theorem exec_cases (i : Instr) (s : State) :
    exec i s = .next ((completion s i).1.complete (completion s i).2) ∨
    (∃ off, i = .pktrd off ∧ s.pktv = false ∧ exec i s = .next (s.raise .nopkt)) ∨
    (∃ u h, i = .hour12 u h ∧ 23 < h.toNat ∧ exec i s = .next (s.raise .range)) := by
  cases i with
  | pktrd off =>
    cases hv : s.pktv with
    | true => exact .inl (by simp only [exec, execPktrd, hv, completion, if_pos])
    | false => exact .inr (.inl ⟨off, rfl, rfl, by simp only [exec, execPktrd, hv, Bool.false_eq_true, if_false]⟩)
  | hour12 u h =>
    by_cases hh : h.toNat ≤ 23
    · exact .inl (by simp only [exec, execHour12, if_pos hh, completion])
    · exact .inr (.inr ⟨u, h, rfl, Nat.lt_of_not_le hh, by simp only [exec, execHour12, if_neg hh]⟩)
  | nop => exact .inl rfl
  | crcinit init => exact .inl rfl
  | crcupd byte => exact .inl rfl
  | crcrd => exact .inl rfl
  | pktbuild ts => exact .inl (by simp only [exec, execPktbuild, completion])
  | stat => exact .inl rfl
  | errrd => exact .inl rfl
  | errclr => exact .inl rfl

@[simp] theorem completion_rsp (i : Instr) (s : State) : (completion s i).1.rsp = s.rsp := by cases i <;> rfl

@[simp] theorem completion_input (i : Instr) (s : State) : (completion s i).1.input = s.input := by cases i <;> rfl

/-- Everything a command word can do when it answers a next state: its command completes, or an error is
raised, for the reason its code names (R65, R152). -/
theorem runCommand_eq_next {w : CmdWord} {s t : State} (h : runCommand w s = .next t) :
    (∃ i, decode w = .ok i ∧ t = (completion s i).1.complete (completion s i).2) ∨
    (∃ e, t = s.raise e ∧
      (decode w = .error e ∨
        (e = .nopkt ∧ s.pktv = false ∧ ∃ off, decode w = .ok (.pktrd off)) ∨
        (e = .range ∧ ∃ u hour, decode w = .ok (.hour12 u hour) ∧ 23 < hour.toNat))) := by
  rcases runCommand_cases w s with ⟨i, hd, hr⟩ | ⟨e, -, hd, hr⟩
  · rw [hr] at h
    rcases exec_cases i s with hx | ⟨off, rfl, hv, hx⟩ | ⟨u, hour, rfl, hh, hx⟩ <;> rw [hx] at h <;>
      injection h with h
    · exact .inl ⟨i, hd, h.symm⟩
    · exact .inr ⟨_, h.symm, .inr (.inl ⟨rfl, hv, off, hd⟩)⟩
    · exact .inr ⟨_, h.symm, .inr (.inr ⟨rfl, u, hour, hd, hh⟩)⟩
  · rw [hr] at h
    injection h with h
    exact .inr ⟨e, h.symm, .inl hd⟩

/-! ### Runs -/

theorem run_zero (s : State) : Host.Core.run Sys2Proof.core 0 s = .next s := rfl

theorem run_succ (n : Nat) {s t : State} (h : step s = .next t) :
    Host.Core.run Sys2Proof.core (n + 1) s = Host.Core.run Sys2Proof.core n t := by
  have h' : Sys2Proof.core.step s = .next t := h
  simp only [Host.Core.run, h']

theorem run_refused (n : Nat) {s : State} {r : Refusal} (h : step s = .refused r) :
    Host.Core.run Sys2Proof.core (n + 1) s = .refused r := by
  have h' : Sys2Proof.core.step s = .refused r := h
  simp only [Host.Core.run, h']

/-- A property every step keeps holds after every number of steps. -/
theorem run_keeps {P : State → Prop} (hstep : ∀ s t, P s → step s = .next t → P t) :
    ∀ (n : Nat) {s t : State}, P s → Host.Core.run Sys2Proof.core n s = .next t → P t
  | 0, s, t, hs, h => by
    have : s = t := by injection h
    exact this ▸ hs
  | n + 1, s, t, hs, h => by
    cases hu : step s with
    | next u => exact run_keeps hstep n (hstep s u hs hu) (run_succ n hu ▸ h)
    | fault r => cases r
    | refused r => rw [run_refused n hu] at h; cases h

end Sys2Proof.Machine
end

