-- ==== Sys2Proof/Tests/Slice0.lean ====
section
/-! SUPPORT. Tests against the spec's own words and vectors, and a witness for every statement's hypotheses.
Expected values are those of spec/95_test_vectors.md, of the rules' worked examples and of
spec/30_encoding.md, none of them the model's own answer. -/

namespace Sys2Proof.Tests

open Sys2Proof Sys2Proof.Machine Sys2Proof.Stated

/-! ### Well-formedness -/

/-- R64: hour 24 is no legal encoding of HOUR12. -/
theorem test_wellFormed_refuses_hour24 : (Instr.hour12 true 24#8).wellFormed = false := by decide
theorem test_wellFormed_accepts_hour23 : (Instr.hour12 true 23#8).wellFormed = true := by decide

/-! ### Decoding and encoding: one word per command, written out from R60, R61 and R70 -/

theorem test_decode_nop : decode 0x0000000000#40 = .ok .nop := by decide
theorem test_decode_crcinit : decode 0x010000005A#40 = .ok (.crcinit 0x5A#8) := by decide
theorem test_decode_crcupd : decode 0x02000000FF#40 = .ok (.crcupd 0xFF#8) := by decide
theorem test_decode_crcrd : decode 0x0300000000#40 = .ok .crcrd := by decide
theorem test_decode_pktbuild : decode 0x1012345678#40 = .ok (.pktbuild 0x12345678#32) := by decide
theorem test_decode_pktrd : decode 0x110000003F#40 = .ok (.pktrd 63#6) := by decide
theorem test_decode_hour12 : decode 0x200000010E#40 = .ok (.hour12 true 14#8) := by decide
theorem test_decode_hour12_24h : decode 0x2000000017#40 = .ok (.hour12 false 23#8) := by decide
theorem test_decode_stat : decode 0x3000000000#40 = .ok .stat := by decide
theorem test_decode_errrd : decode 0x3100000000#40 = .ok .errrd := by decide
theorem test_decode_errclr : decode 0x3200000000#40 = .ok .errclr := by decide

/-- A CRCINIT word bit by bit: op = 0000_0001, imm[31:8] = 0, init = 0101_1010. -/
theorem test_decode_crcinit_bits :
    decode (0b0000_0001#8 ++ 0b0000_0000_0000_0000_0000_0000#24 ++ 0b0101_1010#8) = .ok (.crcinit 0x5A#8) := by decide
/-- A PKTRD word bit by bit: op = 0001_0001, imm[31:6] = 0, off = 100_001. -/
theorem test_decode_pktrd_bits : decode (0b0001_0001#8 ++ 0#26 ++ 0b100_001#6) = .ok (.pktrd 33#6) := by decide
/-- A HOUR12 word bit by bit: op = 0010_0000, imm[31:9] = 0, use12 = 1, hour = 0001_0111. -/
theorem test_decode_hour12_bits :
    decode (0b0010_0000#8 ++ 0#23 ++ 0b1#1 ++ 0b0001_0111#8) = .ok (.hour12 true 23#8) := by decide

/-- V93, V94, V95: reserved opcodes, whatever imm. -/
theorem test_decode_reserved_opcodes :
    [0x0400000000#40, 0xFF00000000#40, 0x04FFFFFFFF#40].map decode = List.replicate 3 (.error .illop) := by decide
/-- V18, V19, V43, V96 and the HOUR12 rows of section 5: reserved operand bits. -/
theorem test_decode_reserved_bits :
    [0x0100000100#40, 0x0300000001#40, 0x1100000040#40, 0x0000000001#40, 0x2000000200#40, 0x2000000218#40,
      0x3200000001#40].map decode = List.replicate 7 (.error .rsvd) := by decide

theorem test_encode_words :
    [Instr.nop, .crcinit 0x5A#8, .crcupd 0x41#8, .crcrd, .pktbuild 0x65920080#32, .pktrd 62#6,
      .hour12 true 14#8, .stat, .errrd, .errclr].map encode =
    [0x0000000000#40, 0x010000005A#40, 0x0200000041#40, 0x0300000000#40, 0x1065920080#40, 0x110000003E#40,
      0x200000010E#40, 0x3000000000#40, 0x3100000000#40, 0x3200000000#40] := by decide

theorem test_decodeTableWord : decodeTableWord 40 0x1000000000 = some (.pktbuild 0#32) := by decide
theorem test_decodeTableWord_refuses : decodeTableWord 40 0x0400000000 = none := by decide
theorem test_withFetchWord_runs_the_word :
    step (State.reset.withFetchWord 40 0x010000005A) = exec (.crcinit 0x5A#8) State.reset := by rfl

/-! ### One step per command -/

/-- A state with these values, an empty buffer and empty ports. -/
def st (acc : Byte) (pktv : Bool) (err : Byte) : State := { State.reset with acc := acc, pktv := pktv, err := err }

/-- The state a step answers. -/
def after (w : CmdWord) (s : State) : State :=
  match stepOn w s with
  | .next t => t
  | .fault _ => s
  | .refused _ => s

/-- V90, and NOP does not clear ERR (R140). -/
theorem test_nop : after 0x0000000000#40 (st 7#8 true 4#8) = { st 7#8 true 4#8 with rsp := [0x0000#16] } := by decide
/-- V16: the second CRCINIT wins. -/
theorem test_crcinit : (after 0x0100000022#40 (st 0x11#8 false 0#8)).acc = 0x22#8 := by decide
/-- V18. -/
theorem test_crcinit_reserved :
    after 0x0100000100#40 State.reset = { st 0#8 false 2#8 with rsp := [0x0200#16] } := by decide
/-- V15: ACC = T[0x07] straight after reset. -/
theorem test_crcupd : (after 0x0200000007#40 State.reset).acc = Config.crcTable 0x07#8 := by rfl
/-- V20: byte = ACC gives T[0x00]. -/
theorem test_crcupd_same : (after 0x02000000FF#40 (st 0xFF#8 false 0#8)).acc = Config.crcTable 0x00#8 := by rfl
/-- V17. -/
theorem test_crcrd : after 0x0300000000#40 (st 0x5A#8 false 0#8) = { st 0x5A#8 false 0#8 with rsp := [0x005A#16] } := by
  decide
/-- V19. -/
theorem test_crcrd_reserved : (after 0x0300000001#40 State.reset).err = 2#8 := by decide
/-- V34 under the illustrative table I-07: PKT[0..5], the checksum 0x3D, ACC and PKTV. -/
theorem test_pktbuild_I07 :
    (let t := State.reset.buildPacket (tableMsb 0x07#8) 0x65920080#32
    t.pkt = [(0, 0x01#8), (1, 0x03#8), (2, 0x65#8), (3, 0x92#8), (5, 0x80#8), (63, 0x3D#8)] ∧
      t.acc = 0x3D#8 ∧ t.pktv = true) := by decide +kernel
/-- V45: the second build replaces every byte of the first, under I-8C. -/
theorem test_pktbuild_replaces :
    ((State.reset.buildPacket (tableLsb 0x8C#8) 0xFFFFFFFF#32).buildPacket (tableLsb 0x8C#8) 0#32).pkt =
      [(0, 0x01#8), (1, 0x03#8), (63, 0x92#8)] := by decide +kernel
/-- V40: E_NOPKT although the bytes are 0x00. -/
theorem test_pktrd_unbuilt :
    after 0x1100000000#40 State.reset = { st 0#8 false 4#8 with rsp := [0x0400#16] } := by decide
/-- V41: offset 3 of a buffer with ts = 0x12345678 answers 0x0034. -/
theorem test_pktrd_built :
    (after 0x1100000003#40 { st 0#8 true 0#8 with pkt := [(2, 0x12#8), (3, 0x34#8)] }).rsp = [0x0034#16] := by decide
/-- Section 5's table: 1, 13 answers 0x0001. -/
theorem test_hour12 : after 0x200000010D#40 State.reset = { State.reset with rsp := [0x0001#16] } := by decide
/-- Section 5's table: hour 24 answers 0x0300. -/
theorem test_hour12_range : after 0x2000000118#40 State.reset = { st 0#8 false 3#8 with rsp := [0x0300#16] } := by decide
/-- V101: PKTV = 1 and ERRF = 1 answer 0x0003. -/
theorem test_stat : (after 0x3000000000#40 (st 0#8 true 4#8)).rsp = [0x0003#16] := by decide
theorem test_stat_error_only : (after 0x3000000000#40 (st 0#8 false 1#8)).rsp = [0x0002#16] := by decide
/-- R142. -/
theorem test_errrd : after 0x3100000000#40 (st 0#8 false 1#8) = { st 0#8 false 1#8 with rsp := [0x0001#16] } := by decide
/-- V98. -/
theorem test_errclr : after 0x3200000000#40 (st 9#8 true 4#8) = { st 9#8 true 0#8 with rsp := [0x0000#16] } := by decide
/-- V99: a malformed ERRCLR does not clear. -/
theorem test_errclr_malformed :
    after 0x3200000001#40 (st 9#8 true 4#8) = { st 9#8 true 4#8 with rsp := [0x0200#16] } := by decide
/-- V97: the first error wins in ERR, the response has its own code. -/
theorem test_first_error_wins :
    after 0x1100000000#40 (st 0#8 false 1#8) = { st 0#8 false 1#8 with rsp := [0x0400#16] } := by decide
/-- R181: a reset event, with responses kept and none produced. -/
theorem test_reset_event :
    step { st 9#8 true 4#8 with pkt := [(0, 1#8)], input := [.reset], rsp := [0x0001#16] } =
      .next { State.reset with rsp := [0x0001#16] } := by rfl

/-! ### The checksum under the illustrative tables (section 2) -/

/-- Entries of I-07 and I-8C as printed. -/
theorem test_table_I07 : [0x01#8, 0x0F#8, 0x80#8, 0xFF#8].map (tableMsb 0x07#8) = [0x07#8, 0x2D#8, 0x89#8, 0xF3#8] := by
  decide
theorem test_table_I8C : [0x01#8, 0x0F#8, 0x80#8, 0xFF#8].map (tableLsb 0x8C#8) = [0x5E#8, 0x41#8, 0x8C#8, 0x35#8] := by
  decide
/-- The sanity values of section 2: "123456789". -/
theorem test_crc8_check_values :
    (let d := [0x31#8, 0x32#8, 0x33#8, 0x34#8, 0x35#8, 0x36#8, 0x37#8, 0x38#8, 0x39#8]
    crc8 (tableMsb 0x07#8) d 0#8 = 0xF4#8 ∧ crc8 (tableLsb 0x8C#8) d 0#8 = 0xA1#8) := by decide +kernel
/-- V11: the order of the bytes matters. -/
theorem test_crc8_order :
    crc8 (tableMsb 0x07#8) [0x41#8, 0x42#8, 0x43#8] 0#8 = 0x52#8 ∧
      crc8 (tableLsb 0x8C#8) [0x41#8, 0x42#8, 0x43#8] 0#8 = 0x34#8 := by decide +kernel
/-- V30 to V33: the checksum byte of packet(ts). -/
theorem test_packet_checksums_I07 :
    [0x00000000#32, 0x00000001#32, 0x12345678#32, 0xFFFFFFFF#32].map (fun ts => (packet (tableMsb 0x07#8) ts)[63]?) =
      [some 0xF4#8, some 0xBD#8, some 0xD7#8, some 0x25#8] := by decide +kernel

/-! ### Civil time (section 5) -/

/-- R125's check values. -/
theorem test_daysFromCivil :
    daysFromCivil 1970 1 1 = 0 ∧ daysFromCivil 2000 2 29 = 11016 ∧ daysFromCivil 2000 3 1 = 11017 ∧
    daysFromCivil 2024 1 1 = 19723 ∧ daysFromCivil 2024 2 29 = 19782 ∧ daysFromCivil 2038 1 19 = 24855 ∧
    daysFromCivil 2100 3 1 = 47541 ∧ daysFromCivil 2106 2 7 = 49710 ∧ daysFromCivil 1969 12 31 = -1 := by decide
/-- V62 to V67. -/
theorem test_tsUtc8 :
    tsUtc8 ⟨2000, 2, 29, 23, 59, 59⟩ = 951839999 ∧ tsUtc8 ⟨2024, 1, 1, 8, 0, 0⟩ = 1704067200 ∧
    tsUtc8 ⟨2024, 1, 1, 14, 5, 9⟩ = 1704089109 ∧ tsUtc8 ⟨2024, 1, 1, 0, 30, 0⟩ = 1704040200 := by decide
/-- V60, V61, V69 to V72. -/
theorem test_hostStamp_range :
    hostStamp ⟨1970, 1, 1, 8, 0, 0⟩ false = .ok 0#32 ∧
    hostStamp ⟨1970, 1, 1, 7, 59, 59⟩ false = .error .clockFailure ∧
    hostStamp ⟨2106, 2, 7, 14, 28, 15⟩ false = .ok 0xFFFFFFFF#32 ∧
    hostStamp ⟨2106, 2, 7, 14, 28, 16⟩ false = .error .clockFailure ∧
    hostStamp ⟨2023, 2, 29, 0, 0, 0⟩ false = .error .clockFailure ∧
    hostStamp ⟨2024, 1, 1, 8, 0, 60⟩ false = .error .clockFailure := by decide
/-- V81 to V86. -/
theorem test_hostStamp_12h :
    hostStamp ⟨2024, 1, 1, 14, 5, 9⟩ true = .ok 0x6591AD55#32 ∧
    hostStamp ⟨2024, 1, 1, 2, 5, 9⟩ true = .ok 0x6591AD55#32 ∧
    hostStamp ⟨2024, 1, 1, 0, 30, 0⟩ true = .ok 0x65923FC8#32 ∧
    hostStamp ⟨2024, 1, 1, 12, 30, 0⟩ true = .ok 0x65923FC8#32 ∧
    hostStamp ⟨2024, 1, 1, 9, 0, 0⟩ true = .ok 0x65920E90#32 ∧
    hostStamp ⟨1970, 1, 1, 13, 0, 0⟩ true = .error .clockFailure := by decide
/-- R125: the other definition gives the same check values. -/
theorem test_daysBySummation : daysBySummation 1972 3 1 = 790 ∧ daysBySummation 1970 1 1 = 0 := by decide

/-! ### The assembler (R70, R71) -/

theorem test_assemble_hour12 : assembleLine "hour12 1, 14 ; P5".toList = .ok [0x200000010E#40] := by decide
theorem test_assemble_upper_hex : assembleLine "PKTBUILD 0x65920080".toList = .ok [0x1065920080#40] := by decide
theorem test_assemble_word : assembleLine ".word 0x1100000040".toList = .ok [0x1100000040#40] := by decide
/-- P6: `tablerd 0x04`. -/
theorem test_assemble_tablerd :
    assemble "tablerd 0x04\n\nnop".toList = .ok [0x0100000004#40, 0x0200000000#40, 0x0300000000#40, 0#40] := by decide
theorem test_assemble_crcbuf :
    assembleLine "crcbuf 0, 0x01, 3".toList =
      .ok [0x0100000000#40, 0x0200000001#40, 0x0200000003#40, 0x0300000000#40] := by decide
theorem test_assemble_refuses :
    assembleLine "pktrd 64".toList = .error .operandRange ∧ assembleLine "hour12 2, 3".toList = .error .operandRange ∧
    assembleLine "crcinit".toList = .error .operandCount ∧ assembleLine "stat 0x".toList = .error .badNumber ∧
    assembleLine "jump 3".toList = .error .unknownMnemonic := by decide
theorem test_pktdump : pktdump.length = 64 ∧ pktdump[63]? = some (.pktrd 63#6) := by decide

/-! ### Witnesses: each statement's hypotheses can be met -/

/-- Clause 2 of EncodeAndDecodeAreInverse. -/
theorem witness_decode_ok : decode 0x2000000117#40 = .ok (.hour12 true 23#8) := by decide
/-- ReservedOpcodeRaisesIllop, ChecksAreMadeInTheFixedOrder clause 1: both ends of R64's reserved ranges. -/
theorem witness_reserved_opcodes :
    ∀ op ∈ [0x04#8, 0x0F#8, 0x12#8, 0x1F#8, 0x21#8, 0x2F#8, 0x33#8, 0xFF#8], op ∉ opcodes := by decide
/-- ReservedOperandBitRaisesRsvd, each disjunct just past its boundary. -/
theorem witness_reserved_bits :
    [(0x01#8, 0x100#32), (0x02#8, 0x100#32), (0x11#8, 64#32), (0x20#8, 0x200#32), (0x00#8, 1#32),
      (0x03#8, 1#32), (0x30#8, 1#32), (0x31#8, 1#32), (0x32#8, 0x80000000#32)].all (fun w => reservedBitSet w.1 w.2) = true := by decide
/-- Its second clause, at the boundaries; PKTBUILD has no reserved bit. -/
theorem witness_no_reserved_bit :
    [(0x01#8, 0xFF#32), (0x02#8, 0xFF#32), (0x11#8, 63#32), (0x20#8, 0x1FF#32), (0x10#8, 0xFFFFFFFF#32),
      (0x00#8, 0#32), (0x03#8, 0#32), (0x30#8, 0#32), (0x31#8, 0#32), (0x32#8, 0#32)].all
      (fun w => w.1 ∈ opcodes ∧ ¬ reservedBitSet w.1 w.2) = true := by decide
/-- ChecksAreMadeInTheFixedOrder, last three clauses: hour 24, PKTV = 0, and words that pass every check. -/
theorem witness_checks :
    [(0x20#8, 0x118#32, false), (0x11#8, 63#32, false), (0x20#8, 0x117#32, false), (0x11#8, 63#32, true)].map
      (fun w => (decide (w.1 ∈ opcodes ∧ ¬ reservedBitSet w.1 w.2.1),
        decide (w.1 = 0x20#8 ∧ 23 < (BitVec.extractLsb' 0 8 w.2.1).toNat),
        decide (w.1 = 0x11#8 ∧ (st 0#8 w.2.2 0#8).pktv = false))) =
    [(true, true, false), (true, false, true), (true, false, false), (true, false, false)] := by decide
/-- StepRunsTheDecodedCommand, each clause. -/
theorem witness_step :
    decode 0x0300000000#40 = .ok .crcrd ∧ decode 0x0400000000#40 = .error .illop ∧
    ({ State.reset with input := [.cmd 0x0300000000#40] } : State).input = .cmd 0x0300000000#40 :: [] ∧
    ({ State.reset with input := [.cmd 0x0400000000#40, .reset] } : State).input = .cmd 0x0400000000#40 :: [.reset] ∧
    ({ State.reset with input := [.reset] } : State).input = .reset :: [] ∧ State.reset.input = [] := by decide
/-- The E_RSVD clauses of the commands with an operand, at the lowest reserved bit. -/
theorem witness_reserved_fields :
    BitVec.extractLsb' 8 24 0x100#32 ≠ 0#24 ∧ BitVec.extractLsb' 6 26 0x40#32 ≠ 0#26 ∧
    BitVec.extractLsb' 9 23 0x200#32 ≠ 0#23 ∧ (1#32 : Word32) ≠ 0#32 := by decide
/-- The buffer of the reset state is in canonical form, and so is one that holds a packet. -/
theorem witness_canonical : State.reset.pkt.wf ∧ Memory.wf [(0, 1#8), (1, 3#8), (63, 0xF4#8)] := by decide
/-- PacketBufferHasTheFixedMap and PktbuildForgetsWhatItFinds: PKTBUILD answers a next state from two states that differ. -/
theorem witness_pktbuild :
    (∃ t, exec (.pktbuild 0xFFFFFFFF#32) State.reset = .next t) ∧
    (∃ t, exec (.pktbuild 0xFFFFFFFF#32) { st 9#8 true 0#8 with pkt := [(7, 7#8)] } = .next t) ∧
    Memory.wf [(7, 7#8)] := ⟨⟨_, rfl⟩, ⟨_, rfl⟩, by decide⟩
/-- PktrdReadsOneByte, clauses 1 and 2. -/
theorem witness_pktv : (st 0#8 true 0#8).pktv = true ∧ (st 0#8 false 0#8).pktv = false := by decide
/-- HourTransformMap and Hour12AnswersTheTransformedHour: the boundary hours of each clause. -/
theorem witness_hours :
    (∀ h ∈ [(0 : Nat), 23], (BitVec.ofNat 8 h).toNat ≤ 23) ∧
    (∀ h ∈ [(1 : Nat), 12], 1 ≤ (BitVec.ofNat 8 h).toNat ∧ (BitVec.ofNat 8 h).toNat ≤ 12 ∧ 1 ≤ (h : Int) ∧ (h : Int) ≤ 12) ∧
    (∀ h ∈ [(13 : Nat), 23], 13 ≤ (BitVec.ofNat 8 h).toNat ∧ (BitVec.ofNat 8 h).toNat ≤ 23 ∧ 13 ≤ (h : Int) ∧ (h : Int) ≤ 23) ∧
    (∀ h ∈ [(24 : Nat), 255], 23 < (BitVec.ofNat 8 h).toNat) := by decide
/-- DaysFromCivilIsTheSumOfLengths: both ends. -/
theorem witness_days : (1970 : Int) ≤ 1970 ∧ (1 : Int) ≤ 1 ∧ (12 : Int) ≤ 12 := by decide
/-- TimestampsOutside1970To2106DoNotFit: the last valid second before, the first after. -/
theorem witness_years :
    (⟨1969, 12, 31, 23, 59, 59⟩ : CivilTime).valid = true ∧ (⟨2107, 1, 1, 0, 0, 0⟩ : CivilTime).valid = true := by decide
/-- ClockFailureExactlyOutOfRange and PacketOfACivilTimeCarriesItsTimestamp: the first and last timestamps and
the ones beyond. -/
theorem witness_stamps :
    ((⟨1970, 1, 1, 8, 0, 0⟩ : CivilTime).valid = true ∧ tsUtc8 ⟨1970, 1, 1, 8, 0, 0⟩ = 0) ∧
    ((⟨2106, 2, 7, 14, 28, 15⟩ : CivilTime).valid = true ∧ tsUtc8 ⟨2106, 2, 7, 14, 28, 15⟩ = 4294967295) ∧
    tsUtc8 ⟨1970, 1, 1, 7, 59, 59⟩ = -1 ∧ tsUtc8 ⟨2106, 2, 7, 14, 28, 16⟩ = 4294967296 ∧
    (⟨2023, 2, 29, 0, 0, 0⟩ : CivilTime).valid = false := by decide
/-- HalfOfTheDayIsLost: hours 0, 11, 12, 13 and 23 of a valid day. -/
theorem witness_half_days :
    ∀ h ∈ [(0 : Int), 1, 11, 12, 13, 23], (⟨2024, 1, 1, h, 5, 9⟩ : CivilTime).valid = true := by decide
/-- HostFetchesBuildPacket, both clauses. -/
theorem witness_fetch :
    (∃ p, buildPacketAt Config.crcTable ⟨2024, 1, 1, 14, 5, 9⟩ true = .ok p) ∧
    buildPacketAt Config.crcTable ⟨1970, 1, 1, 13, 0, 0⟩ true = .error .clockFailure ∧ State.reset.pkt.wf :=
  ⟨⟨_, rfl⟩, rfl, by decide⟩
/-- FirstErrorWins and ErrorsArePreciseAndGateNothing: ERRCLR, a command that completes, one that raises, reset. -/
theorem witness_commands :
    stepOn 0x3200000000#40 (st 0#8 false 4#8) = .next { st 0#8 false 0#8 with rsp := [0x0000#16] } ∧
    stepOn 0x0000000000#40 (st 0#8 false 4#8) = .next { st 0#8 false 4#8 with rsp := [0x0000#16] } ∧
    stepOn 0x1100000000#40 (st 0#8 false 0#8) = .next { st 0#8 false 4#8 with rsp := [0x0400#16] } ∧
    (0x04#8 ++ 0x00#8 : BitVec 16) = 0x0400#16 ∧ (0x04#8 : Byte) ≠ 0x00#8 ∧
    step { st 0#8 true 4#8 with input := [.reset] } = .next State.reset := ⟨rfl, rfl, rfl, rfl, by decide, rfl⟩
/-- OnlyPktrdFailsOnALegalEncoding. -/
theorem witness_legal :
    (Instr.hour12 true 23#8).wellFormed = true ∧ ∀ off, Instr.hour12 true 23#8 ≠ .pktrd off := by decide
/-- OnlyThreeCommandsWriteAcc, OnlyPktbuildWritesTheBuffer and NothingIsHiddenBesideTheTuple: a command that
changes ACC, from two states that differ only in their ports. -/
theorem witness_writers :
    stepOn 0x010000005A#40 State.reset = .next { st 0x5A#8 false 0#8 with rsp := [0x0000#16] } ∧
    (0x5A#8 : Byte) ≠ State.reset.acc ∧ BitVec.extractLsb' 32 8 0x010000005A#40 ≠ 0x10#8 ∧
    BitVec.extractLsb' 32 8 0x10FFFFFFFF#40 = 0x10#8 ∧ (∃ t, stepOn 0x10FFFFFFFF#40 State.reset = .next t) ∧
    ({ State.reset with rsp := [0x0001#16] } : State).acc = State.reset.acc :=
  ⟨rfl, by decide, by decide, by decide, ⟨_, rfl⟩, rfl⟩
/-- StepKeepsTheStateInvariant and ReachableStatesSatisfyTheInvariants: a state that has built a packet is
reached from reset by one presented command and one step. -/
theorem witness_reachable :
    ∃ t, Reachable t ∧ t.pktv = true ∧ step { State.reset with input := [.cmd 0x1000000000#40] } = .next t :=
  ⟨_, .step _ _ (.presents State.reset [.cmd 0x1000000000#40] .reset) rfl, rfl, rfl⟩
/-- StepKeepsTheStateInvariant: a state that has the invariant. -/
theorem witness_invariant : ∃ s : State, s.Inv ∧ ∃ t, step s = .next t :=
  ⟨State.reset, ⟨by decide, by decide, fun _ _ => rfl, fun h => by cases h⟩, _, rfl⟩

end Sys2Proof.Tests
end

section
/-! The family of the state (spec/10_state.md): ERR's write rule, the flags in STATUS, what a command can see
of the state, and the invariants of R30. -/

namespace Sys2Proof.Machine

open Sys2Proof.Stated

/-! ### The view STATUS -/

theorem State.errf_eq_true_iff (s : State) : s.errf = true ↔ s.err ≠ 0x00#8 := decide_eq_true_iff

/-- A byte made of two flags below six zero bits: its bits, and its four values. -/
theorem twoFlagByte_bits : ∀ e v : Bool,
    (0#6 ++ (BitVec.ofBool e ++ BitVec.ofBool v) : Byte).getLsbD 0 = v ∧
    (0#6 ++ (BitVec.ofBool e ++ BitVec.ofBool v) : Byte).getLsbD 1 = e ∧
    (0#6 ++ (BitVec.ofBool e ++ BitVec.ofBool v) : Byte).extractLsb' 2 6 = 0#6 ∧
    (0#6 ++ (BitVec.ofBool e ++ BitVec.ofBool v) : Byte) ∈ [0x00#8, 0x01#8, 0x02#8, 0x03#8] := by
  decide

/-- Settles O31: STATUS is the byte of the two flags ERRF and PKTV. -/
theorem statusShowsPktvAndErrf : Obligations.StatusShowsPktvAndErrf := by
  intro s
  obtain ⟨hpktv, herrf, hzero, hmem⟩ := twoFlagByte_bits s.errf s.pktv
  exact ⟨hpktv, (Bool.eq_iff_iff.mp herrf).trans s.errf_eq_true_iff, hzero, hmem⟩

/-! ### ERR's write rule -/

/-- The codes of R150 are 0x01 to 0x04. -/
theorem ErrCode.code_le (e : ErrCode) : e.code.toNat ≤ 4 := by cases e <;> decide

/-- ERRCLR's row has no operand bit, so one word alone decodes to it. -/
theorem decode_eq_errclr_iff (w : CmdWord) : decode w = .ok .errclr ↔ w = 0x3200000000#40 := by
  constructor
  · intro h
    obtain ⟨row, hrow, hop, hres, hbuild⟩ := decode_eq_ok h
    simp only [opcodeRows, List.mem_cons, List.not_mem_nil, or_false] at hrow
    rcases hrow with rfl | rfl | rfl | rfl | rfl | rfl | rfl | rfl | rfl | rfl <;> cases hbuild
    rw [← cmdWord_fields w, ← hop, (and_allOnes_eq_zero (immField w)).mp hres]
    rfl
  · rintro rfl
    decide

/-- ERRCLR is the one command whose completion writes ERR (R25). -/
theorem completion_err {i : Instr} (h : i ≠ .errclr) (s : State) : (completion s i).1.err = s.err := by
  cases i with
  | errclr => exact absurd rfl h
  | _ => rfl

theorem runCommand_errclr (s : State) : runCommand 0x3200000000#40 s = .next (s.clearErr.complete 0x00#8) := rfl

/-- ERR after ERRCLR's word. -/
theorem err_of_runCommand_errclr {s t : State} (h : runCommand 0x3200000000#40 s = .next t) : t.err = 0x00#8 := by
  rw [runCommand_errclr] at h
  injection h with h
  rw [← h, State.complete_err, State.clearErr_err]

/-- A completing word other than ERRCLR's keeps ERR. -/
theorem completion_err_of_decode {w : CmdWord} {i : Instr} (hd : decode w = .ok i) (hw : w ≠ 0x3200000000#40)
    (s : State) : (completion s i).1.err = s.err :=
  completion_err (fun hi => hw ((decode_eq_errclr_iff w).mp (hi ▸ hd))) s

/-- Settles O36: a command that completes leaves ERR unless it is ERRCLR, and one that raises enters its code
only over 0x00. -/
theorem firstErrorWins : Obligations.FirstErrorWins := by
  refine ⟨fun w s t h => ?_, fun s t h => ?_⟩
  · have hrun : runCommand w s = .next t := h
    have hclr : w = 0x3200000000#40 → t.err = 0x00#8 := fun hw => err_of_runCommand_errclr (hw ▸ hrun)
    rcases runCommand_eq_next hrun with ⟨i, hd, rfl⟩ | ⟨e, rfl, -⟩
    · have hrsp := State.complete_rsp (completion s i).1 (completion s i).2
      rw [completion_rsp] at hrsp
      refine ⟨0x00#8, _, hrsp, by decide, fun hc => absurd rfl hc, hclr, fun hw => ?_⟩
      rw [State.complete_err, completion_err_of_decode hd hw]
      split
      · next h0 => exact h0
      · rfl
    · exact ⟨e.code, 0x00#8, State.raise_rsp s e, ErrCode.code_le e, fun _ => rfl, hclr,
        fun _ => State.raise_err s e⟩
  · rw [step_reset rfl] at h
    injection h with h
    rw [← h, State.resetEvent_err]

/-! ### What a command can see of the state -/

/-- The state with other ports: R20's tuple stays. -/
def State.withPorts (input : List HostEvent) (rsp : List RspWord) (s : State) : State :=
  { s with input := input, rsp := rsp }

theorem State.raise_withPorts (e : ErrCode) (input : List HostEvent) (rsp : List RspWord) (s : State) :
    (s.withPorts input rsp).raise e = (s.raise e).withPorts input (rsp ++ [rspWord e.code 0x00#8]) := rfl

theorem State.complete_withPorts (d : Byte) (input : List HostEvent) (rsp : List RspWord) (s : State) :
    (s.withPorts input rsp).complete d = (s.complete d).withPorts input (rsp ++ [okRsp d]) := rfl

/-- States that agree on R20's tuple differ in their ports alone. -/
theorem State.eq_withPorts {s₁ s₂ : State} (hacc : s₁.acc = s₂.acc) (hpkt : s₁.pkt = s₂.pkt)
    (hpktv : s₁.pktv = s₂.pktv) (herr : s₁.err = s₂.err) : s₂ = s₁.withPorts s₂.input s₂.rsp := by
  cases s₁; cases s₂; subst hacc hpkt hpktv herr; rfl

/-- What a command completes with is a function of the tuple. -/
theorem completion_withPorts (input : List HostEvent) (rsp : List RspWord) (s : State) (i : Instr) :
    completion (s.withPorts input rsp) i = ((completion s i).1.withPorts input rsp, (completion s i).2) := by
  cases i <;> rfl

/-- Whether a command completes, and which error it raises if not, is decided by PKTV alone. -/
theorem exec_of_pktv (i : Instr) (v : Bool) :
    (∀ s : State, s.pktv = v → exec i s = .next ((completion s i).1.complete (completion s i).2)) ∨
    ∃ e, ∀ s : State, s.pktv = v → exec i s = .next (s.raise e) := by
  cases i with
  | pktrd off =>
    cases v with
    | true => exact .inl fun s hv => if_pos hv
    | false => exact .inr ⟨.nopkt, fun s hv => if_neg (Bool.eq_false_iff.mp hv)⟩
  | hour12 u hour =>
    by_cases hh : hour.toNat ≤ 23
    · exact .inl fun s _ => if_pos hh
    · exact .inr ⟨.range, fun s _ => if_neg hh⟩
  | _ => exact .inl fun s _ => rfl

/-- A command word's answer and the tuple it leaves do not depend on the ports (R29). -/
theorem runCommand_withPorts (w : CmdWord) (s : State) :
    ∃ (u : State) (r : RspWord), ∀ input rsp,
      runCommand w (s.withPorts input rsp) = .next (u.withPorts input (rsp ++ [r])) := by
  cases hd : decode w with
  | error e => exact ⟨s.raise e, _, fun input rsp => by rw [runCommand_error hd, State.raise_withPorts]⟩
  | ok i =>
    rcases exec_of_pktv i s.pktv with hx | ⟨e, hx⟩
    · refine ⟨(completion s i).1.complete (completion s i).2, okRsp (completion s i).2, fun input rsp => ?_⟩
      rw [runCommand_ok hd, hx (s.withPorts input rsp) rfl, completion_withPorts, State.complete_withPorts]
    · refine ⟨s.raise e, rspWord e.code 0x00#8, fun input rsp => ?_⟩
      rw [runCommand_ok hd, hx (s.withPorts input rsp) rfl, State.raise_withPorts]

/-- Settles O41: the second state is the first with other ports, which no command reads. -/
theorem nothingIsHiddenBesideTheTuple : Obligations.NothingIsHiddenBesideTheTuple := by
  intro w s₁ s₂ t₁ hacc hpkt hpktv herr h₁
  obtain ⟨u, r, hu⟩ := runCommand_withPorts w s₁
  have ht₁ : t₁ = u.withPorts s₁.input (s₁.rsp ++ [r]) := by
    injection h₁.symm.trans (hu s₁.input s₁.rsp)
  have h₂ : stepOn w s₂ = .next (u.withPorts s₂.input (s₂.rsp ++ [r])) := by
    rw [← hu s₂.input s₂.rsp, ← State.eq_withPorts hacc hpkt hpktv herr]
    rfl
  subst ht₁
  exact ⟨_, r, h₂, rfl, rfl, rfl, rfl, rfl, rfl⟩

/-! ### The invariants of R30 -/

theorem length_packetBody (ts : Word32) : (packetBody ts).length = 63 := rfl

/-- PKTBUILD's buffer meets the packet invariants of R101. -/
theorem packetInvariant_buildPacket (T : Table) (ts : Word32) {s : State} (h : s.pkt.wf) :
    packetInvariant T (s.buildPacket T ts).pkt := by
  refine ⟨read_buildPacket T ts h _, read_buildPacket T ts h _, fun i hlo hhi => ?_, ?_⟩
  · have hne : i ≠ 63#6 := by rintro rfl; exact absurd hhi (by decide)
    rw [State.buildPacket_pkt, Memory.read_write (wf_zeroFill (wf_writeFields h ts)), if_neg hne,
      read_zeroFill (wf_writeFields h ts), if_pos ⟨hlo, hhi⟩]
  · rw [read_buildPacket T ts h, if_pos rfl, bytes_buildPacket T ts h, packet,
      List.take_left' (length_packetBody ts), packetSeed]

/-- The invariant reads PKT, PKTV and ERR only. -/
theorem State.Inv.congr {s t : State} (h : s.Inv) (hpkt : t.pkt = s.pkt) (hpktv : t.pktv = s.pktv)
    (herr : t.err.toNat ≤ 4) : t.Inv :=
  ⟨hpkt ▸ h.canonical, herr, fun hv => hpkt ▸ h.unbuilt (hpktv ▸ hv), fun hv => hpkt ▸ h.built (hpktv ▸ hv)⟩

theorem State.Inv.reset (input : List HostEvent) (rsp : List RspWord) : (State.reset.withPorts input rsp).Inv :=
  ⟨Memory.wf_empty, Nat.zero_le 4, fun _ => Memory.read_empty, (nomatch ·)⟩

theorem State.Inv.raise {s : State} (h : s.Inv) (e : ErrCode) : (s.raise e).Inv := by
  refine h.congr rfl rfl ?_
  rw [State.raise_err]
  split
  · exact ErrCode.code_le e
  · exact h.errLegal

theorem State.Inv.buildPacket {s : State} (h : s.Inv) (ts : Word32) : (s.buildPacket Config.crcTable ts).Inv :=
  ⟨wf_buildPacket _ ts s h.canonical, h.errLegal, (nomatch ·),
    fun _ => packetInvariant_buildPacket _ ts h.canonical⟩

theorem State.Inv.completion {s : State} (h : s.Inv) (i : Instr) : (completion s i).1.Inv := by
  cases i with
  | pktbuild ts => exact h.buildPacket ts
  | errclr => exact h.congr rfl rfl (Nat.zero_le 4)
  | _ => exact h.congr rfl rfl h.errLegal

theorem State.Inv.runCommand {s t : State} (h : s.Inv) {w : CmdWord} (ht : runCommand w s = .next t) : t.Inv := by
  rcases runCommand_eq_next ht with ⟨i, -, rfl⟩ | ⟨e, rfl, -⟩
  · exact (h.completion i).congr rfl rfl (h.completion i).errLegal
  · exact h.raise e

/-- Every step keeps the invariant. -/
theorem State.Inv.step {s t : State} (h : s.Inv) (ht : step s = .next t) : t.Inv := by
  cases hin : s.input with
  | nil =>
    rw [step_idle hin] at ht
    injection ht with ht
    exact ht ▸ h
  | cons event rest =>
    cases event with
    | reset =>
      rw [step_reset hin] at ht
      injection ht with ht
      exact ht ▸ State.Inv.reset rest s.rsp
    | cmd w =>
      rw [step_cmd hin] at ht
      have hrest : State.Inv { s with input := rest } := h.congr rfl rfl h.errLegal
      exact hrest.runCommand ht

theorem Reachable.inv {s : State} (h : Reachable s) : s.Inv := by
  induction h with
  | reset => exact State.Inv.reset [] []
  | presents s events _ ih => exact ih.congr rfl rfl ih.errLegal
  | step s t _ ht ih => exact ih.step ht

/-- The legal values of ERR (R25). -/
theorem mem_errValues {b : Byte} (h : b.toNat ≤ 4) : b ∈ [0x00#8, 0x01#8, 0x02#8, 0x03#8, 0x04#8] := by
  simp only [List.mem_cons, List.not_mem_nil, or_false]
  bv_omega

/-- Settles O46: the invariant holds at reset, and presenting events and stepping keep it. -/
theorem reachableStatesSatisfyTheInvariants : Obligations.ReachableStatesSatisfyTheInvariants := by
  intro s hs
  have hinv := hs.inv
  refine ⟨mem_errValues hinv.errLegal, hinv.unbuilt, fun hv => ?_⟩
  rw [← take_bytes]
  exact hinv.built hv

end Sys2Proof.Machine
end

section
/-! The family of the memory (spec/20_memory.md): the map of the PKT space. -/

namespace Sys2Proof.Machine

/-- PKTBUILD leaves the timestamp big-endian in PKT[2..5] (R44). -/
theorem stamp_buildPacket (T : Table) (ts : Word32) {s : State} (h : s.pkt.wf) :
    [2#6, 3#6, 4#6, 5#6].map (s.buildPacket T ts).pkt.read = stampBytes ts := by
  simp only [List.map_cons, List.map_nil, read_buildPacket T ts h]
  rfl

/-- The buffer after a PKTBUILD command. -/
theorem pkt_of_exec_pktbuild {ts : Word32} {s t : State} (h : exec (.pktbuild ts) s = .next t) :
    t.pkt = (s.buildPacket Config.crcTable ts).pkt := by
  simp only [exec, execPktbuild] at h
  injection h with h
  rw [← h, State.complete_pkt]

/-- Settles O17: the buffer PKTBUILD leaves meets the packet invariant and holds the timestamp big-endian. -/
theorem packetBufferHasTheFixedMap : Obligations.PacketBufferHasTheFixedMap := by
  intro ts s t hwf hexec
  rw [pkt_of_exec_pktbuild hexec]
  obtain ⟨hreport, hcommand, hzeros, hsum⟩ := packetInvariant_buildPacket Config.crcTable ts hwf
  have hstamp := stamp_buildPacket Config.crcTable ts hwf
  simp only [List.map_cons, List.map_nil, stampBytes, List.cons.injEq, and_true] at hstamp
  obtain ⟨h2, h3, h4, h5⟩ := hstamp
  rw [take_bytes] at hsum
  exact ⟨hreport, hcommand, h2, h3, h4, h5, hzeros, hsum⟩

end Sys2Proof.Machine
end

section
/-! The family of the encoding (spec/30_encoding.md): the checks a command word goes through, in R65's order. -/

namespace Sys2Proof

open Sys2Proof.Stated

/-! ### The opcode table against the statements' own words -/

/-- A defined opcode is the opcode of a row (R64). -/
theorem mem_opcodes_iff (op : Byte) : op ∈ opcodes ↔ ∃ row ∈ opcodeRows, row.op = op := by
  rw [show opcodes = opcodeRows.map (·.op) from rfl, List.mem_map]

/-- Looking a row's opcode up finds that row: no two rows share an opcode. -/
theorem find_opcodeRow :
    ∀ row ∈ opcodeRows, opcodeRows.find? (fun r => r.op == row.op) = some row := by
  simp only [opcodeRows, List.forall_mem_cons]
  exact ⟨rfl, rfl, rfl, rfl, rfl, rfl, rfl, rfl, rfl, rfl, by simp⟩

/-- R67's list of reserved operand bits is the table's column of reserved bits (R61). -/
theorem reservedBitSet_iff (imm : Word32) :
    ∀ row ∈ opcodeRows, reservedBitSet row.op imm ↔ imm &&& row.reserved ≠ 0#32 := by
  simp [opcodeRows, reservedBitSet, and_allOnes_eq_zero, and_reservedByte_eq_zero, and_reservedOffset_eq_zero,
    and_reservedHour_eq_zero]

/-- PKTRD is built by the row of opcode 0x11 alone. -/
theorem op_of_build_pktrd {imm : Word32} {off : Offset} :
    ∀ row ∈ opcodeRows, row.build imm = .pktrd off → row.op = 0x11#8 := by
  simp [opcodeRows]

/-- HOUR12 is built by the row of opcode 0x20 alone, and takes its hour from the low byte of `imm`. -/
theorem op_of_build_hour12 {imm : Word32} {u : Bool} {hour : Byte} :
    ∀ row ∈ opcodeRows, row.build imm = .hour12 u hour → row.op = 0x20#8 ∧ byteOperand imm = hour := by
  simp [opcodeRows]

/-! ### Decoding, check by check -/

/-- R65's first check. -/
theorem decode_of_not_mem_opcodes {op : Byte} (imm : Word32) (h : op ∉ opcodes) :
    decode (cmdWord op imm) = .error .illop := by
  rw [decode_eq_illop, opField_cmdWord]
  exact fun row hrow heq => h ((mem_opcodes_iff op).mpr ⟨row, hrow, heq⟩)

/-- R65's second check. -/
theorem decode_of_reservedBitSet {op : Byte} {imm : Word32} (hop : op ∈ opcodes) (hres : reservedBitSet op imm) :
    decode (cmdWord op imm) = .error .rsvd := by
  obtain ⟨row, hrow, rfl⟩ := (mem_opcodes_iff op).mp hop
  rw [decode_cmdWord_of_row imm (find_opcodeRow row hrow), if_neg ((reservedBitSet_iff imm row hrow).mp hres)]

/-- A word that passes both decodes to the command of its row. -/
theorem decode_of_not_reservedBitSet {row : OpcodeRow} (hrow : row ∈ opcodeRows) {imm : Word32}
    (hres : ¬ reservedBitSet row.op imm) : decode (cmdWord row.op imm) = .ok (row.build imm) := by
  rw [decode_cmdWord_of_row imm (find_opcodeRow row hrow),
    if_pos (Classical.not_not.mp (mt (reservedBitSet_iff imm row hrow).mpr hres))]

end Sys2Proof

namespace Sys2Proof.Machine

open Sys2Proof.Stated

/-! ### The step on a presented word -/

theorem stepOn_of_decode_error {op : Byte} {imm : Word32} {e : ErrCode}
    (h : decode (cmdWord op imm) = .error e) (s : State) : stepOn (op ++ imm) s = .next (erred e.code s) :=
  runCommand_error h s

theorem stepOn_of_decode_ok {op : Byte} {imm : Word32} {i : Instr}
    (h : decode (cmdWord op imm) = .ok i) (s : State) : stepOn (op ++ imm) s = exec i s :=
  runCommand_ok h s

/-- Settles O4: no row of the opcode table has the opcode. -/
theorem reservedOpcodeRaisesIllop : Obligations.ReservedOpcodeRaisesIllop :=
  fun _ imm s hop => stepOn_of_decode_error (decode_of_not_mem_opcodes imm hop) s

/-- R65's third check: HOUR12 with an hour above 23. -/
theorem stepOn_hour_above_23 {imm : Word32} (hres : ¬ reservedBitSet 0x20#8 imm)
    (hhour : 23 < (byteOperand imm).toNat) (s : State) :
    stepOn (0x20#8 ++ imm) s = .next (erred 0x03#8 s) := by
  have hd := decode_of_not_reservedBitSet (row := opcodeRows[6]) (List.getElem_mem _) hres
  exact (stepOn_of_decode_ok hd s).trans (if_neg (Nat.not_le.mpr hhour))

/-- R65's fourth check: PKTRD before any packet has been built. -/
theorem stepOn_pktrd_unbuilt {imm : Word32} (hres : ¬ reservedBitSet 0x11#8 imm) {s : State}
    (hpktv : s.pktv = false) : stepOn (0x11#8 ++ imm) s = .next (erred 0x04#8 s) := by
  have hd := decode_of_not_reservedBitSet (row := opcodeRows[5]) (List.getElem_mem _) hres
  exact (stepOn_of_decode_ok hd s).trans (if_neg (Bool.eq_false_iff.mp hpktv))

/-- The command of a row completes, unless R65's third or fourth check fails. -/
theorem exec_build_completes {row : OpcodeRow} (hrow : row ∈ opcodeRows) {imm : Word32} {s : State}
    (hhour : ¬ (row.op = 0x20#8 ∧ 23 < (byteOperand imm).toNat))
    (hpktv : ¬ (row.op = 0x11#8 ∧ s.pktv = false)) :
    exec (row.build imm) s =
      .next ((completion s (row.build imm)).1.complete (completion s (row.build imm)).2) := by
  rcases exec_cases (row.build imm) s with hx | ⟨off, hi, hv, -⟩ | ⟨u, hour, hi, hlt, -⟩
  · exact hx
  · exact absurd ⟨op_of_build_pktrd row hrow hi, hv⟩ hpktv
  · obtain ⟨hop, rfl⟩ := op_of_build_hour12 row hrow hi
    exact absurd ⟨hop, hlt⟩ hhour

/-- Settles O6: one lemma per check, and the completion of a word that passes them all. -/
theorem checksAreMadeInTheFixedOrder : Obligations.ChecksAreMadeInTheFixedOrder := by
  refine fun op imm s => ⟨reservedOpcodeRaisesIllop op imm s,
    fun hop hres => stepOn_of_decode_error (decode_of_reservedBitSet hop hres) s,
    fun hop hres => ⟨?hour, ?pktv, ?executes⟩⟩
  case hour =>
    rintro rfl hhour
    exact stepOn_hour_above_23 hres hhour s
  case pktv =>
    rintro rfl hpktv
    exact stepOn_pktrd_unbuilt hres hpktv
  case executes =>
    intro hhour hpktv
    obtain ⟨row, hrow, rfl⟩ := (mem_opcodes_iff op).mp hop
    have hd := decode_of_not_reservedBitSet hrow hres
    have hrsp := State.complete_rsp (completion s (row.build imm)).1 (completion s (row.build imm)).2
    rw [completion_rsp] at hrsp
    exact ⟨row.build imm, _, _, hd, stepOn_of_decode_ok hd s, exec_build_completes hrow hhour hpktv, hrsp⟩

end Sys2Proof.Machine
end

section
/-! The family of the checksum (spec/40_crc.md): the laws of `crc8`, the three commands, and the stream of
commands by which a host sums a byte sequence. -/

namespace Sys2Proof

open Sys2Proof.Laws

/-! ### Encoded commands decode to themselves -/

theorem encodedFields : ∀ i, EncodedFields.Statement i
  | .nop => EncodedFields.nop
  | .crcinit init => EncodedFields.crcinit init
  | .crcupd byte => EncodedFields.crcupd byte
  | .crcrd => EncodedFields.crcrd
  | .pktbuild ts => EncodedFields.pktbuild ts
  | .pktrd off => EncodedFields.pktrd off
  | .hour12 use12 hour => EncodedFields.hour12 use12 hour
  | .stat => EncodedFields.stat
  | .errrd => EncodedFields.errrd
  | .errclr => EncodedFields.errclr

/-- The word a command encodes to decodes to that command (R61, R63). -/
theorem decode_encode (i : Instr) : decode (encode i) = .ok i := by
  obtain ⟨row, hrow, hmatch, hbuild⟩ := encodedFields i
  rw [← cmdWord_fields (encode i), matches_iff hrow] at hmatch
  obtain ⟨hop, hres⟩ := hmatch
  rw [decode_of_row (hop ▸ find_opcodeRow row hrow), if_pos hres, hbuild]

/-- The operand field of a command that has one byte operand and 24 reserved bits, all zero. -/
theorem zero_append_byte (b : Byte) : (0#24 ++ b : Word32) = b.setWidth 32 :=
  (BitVec.setWidth_eq_append (by decide)).symm

end Sys2Proof

namespace Sys2Proof.Machine

open Sys2Proof.Stated

/-! ### The step on an encoded command -/

theorem stepOn_encode (i : Instr) (s : State) : stepOn (encode i) s = exec i s :=
  runCommand_ok (decode_encode i) s

/-- A defined opcode with a reserved operand bit set is answered with E_RSVD (R67). -/
theorem stepOn_of_reservedBitSet {op : Byte} {imm : Word32} (hop : op ∈ opcodes) (hres : reservedBitSet op imm)
    (s : State) : stepOn (op ++ imm) s = .next (erred 0x02#8 s) :=
  stepOn_of_decode_error (decode_of_reservedBitSet hop hres) s

/-- The reserved bits imm[31:8] of a command with a byte operand (R61). -/
theorem lt_toNat_of_high_ne_zero {imm : Word32} (h : imm.extractLsb' 8 24 ≠ 0#24) : 0xFF < imm.toNat := by
  rw [Ne, extract_high_eq_zero imm 8 24 (Nat.le_refl 32)] at h
  exact Nat.lt_of_succ_le (Nat.not_lt.mp h)

/-- What a command completes with is a function of the state without the events to come. -/
theorem completion_facing (is : List Instr) (s : State) (i : Instr) :
    completion (facing is s) i = (facing is (completion s i).1, (completion s i).2) := by
  cases i <;> rfl

/-- A meaning does not read the events the host has still to present. -/
theorem exec_facing {i : Instr} {s t : State} (h : exec i s = .next t) (is : List Instr) :
    exec i (facing is s) = .next (facing is t) := by
  rcases exec_of_pktv i s.pktv with hx | ⟨e, hx⟩
  · rw [hx s rfl] at h
    injection h with h
    rw [hx (facing is s) rfl, completion_facing, ← h, facing, facing, State.complete_input, completion_input]
    rfl
  · rw [hx s rfl] at h
    injection h with h
    rw [hx (facing is s) rfl, ← h]
    rfl

/-- The first of the commands the host presents takes one step; the others are run from the state it leaves. -/
theorem steps_facing_cons {i : Instr} {s t : State} (h : exec i s = .next t) (is : List Instr) (n : Nat) :
    steps (n + 1) (facing (i :: is) s) = steps n (facing is t) :=
  run_succ n ((stepOn_encode i (facing is s)).trans (exec_facing h is))

/-! ### The laws of the checksum -/

theorem crc8_nil (T : Table) (k : Byte) : crc8 T [] k = k := rfl

theorem crc8_singleton (T : Table) (b k : Byte) : crc8 T [b] k = T (k ^^^ b) := by
  rw [crc8_cons, crc8_nil, upd_eq]

/-- The checksum of a sequence continues from the checksum of its first part (R82). -/
theorem crc8_append (T : Table) (d e : List Byte) (k : Byte) : crc8 T (d ++ e) k = crc8 T e (crc8 T d k) :=
  List.foldl_append

/-- Settles O11: the update step's equation, and the checksum as a fold of it. -/
theorem checksumLawsOverEveryTable : Obligations.ChecksumLawsOverEveryTable := by
  refine fun T => ⟨upd_eq T, crc8_nil T, crc8_singleton T, crc8_append T, fun a => ⟨?_, ?_⟩⟩
  · rw [crc8_singleton, BitVec.xor_zero]
  · rw [crc8_singleton, BitVec.zero_xor]

/-! ### The three commands -/

theorem exec_crcinit (init : Byte) (s : State) :
    exec (.crcinit init) s = .next (answered 0x00#8 { s with acc := init }) := rfl

theorem exec_crcupd (byte : Byte) (s : State) :
    exec (.crcupd byte) s = .next (answered 0x00#8 { s with acc := Config.crcTable (s.acc ^^^ byte) }) := rfl

theorem exec_crcrd (s : State) : exec .crcrd s = .next (answered s.acc s) := rfl

/-- Settles O8: CRCINIT's meaning, on its word, and E_RSVD for a set reserved bit. -/
theorem crcinitSeedsTheAccumulator : Obligations.CrcinitSeedsTheAccumulator := by
  refine ⟨exec_crcinit, fun init s => ?_, fun imm s h => ?_⟩
  · rw [zero_append_byte]
    exact stepOn_encode (.crcinit init) s
  · exact stepOn_of_reservedBitSet (by decide) (.inl ⟨.inl rfl, lt_toNat_of_high_ne_zero h⟩) s

/-- Settles O9: CRCUPD's meaning, on its word, and E_RSVD for a set reserved bit. -/
theorem crcupdAbsorbsOneByte : Obligations.CrcupdAbsorbsOneByte := by
  refine ⟨exec_crcupd, fun byte s => ?_, fun imm s h => ?_⟩
  · rw [zero_append_byte]
    exact stepOn_encode (.crcupd byte) s
  · exact stepOn_of_reservedBitSet (by decide) (.inl ⟨.inr rfl, lt_toNat_of_high_ne_zero h⟩) s

/-- Settles O10: CRCRD's meaning, on its word, and E_RSVD for a nonzero operand field. -/
theorem crcrdReadsTheAccumulator : Obligations.CrcrdReadsTheAccumulator :=
  ⟨exec_crcrd, stepOn_encode .crcrd, fun _ s h =>
    stepOn_of_reservedBitSet (by decide) (.inr (.inr (.inr ⟨.inr (.inl rfl), h⟩))) s⟩

/-! ### Streaming a byte sequence -/

/-- One CRCUPD per byte and a final CRCRD continue the checksum from the ACC they find (R87). -/
theorem steps_crcupds_crcrd (d : List Byte) (s : State) :
    steps (d.length + 1) (facing (d.map .crcupd ++ [.crcrd]) s) =
      .next { s with
        acc := crc8 Config.crcTable d s.acc
        rsp := s.rsp ++ List.replicate d.length 0x0000#16 ++ [okRsp (crc8 Config.crcTable d s.acc)] } := by
  induction d generalizing s with
  | nil =>
    rw [List.length_nil, List.replicate_zero, List.append_nil]
    exact steps_facing_cons (exec_crcrd s) [] 0
  | cons b d ih =>
    rw [List.map_cons, List.cons_append, List.length_cons, steps_facing_cons (exec_crcupd b s), ih, crc8_cons,
      List.replicate_succ, List.append_cons s.rsp]
    rfl

/-- Settles O12: CRCINIT seeds ACC, and the stream behind it continues from the seed. -/
theorem streamedBytesGiveTheChecksum : Obligations.StreamedBytesGiveTheChecksum := by
  intro k d s
  rw [crcbuf, steps_facing_cons (exec_crcinit k s), steps_crcupds_crcrd, List.replicate_succ, List.append_cons s.rsp]
  rfl

end Sys2Proof.Machine
end

section
/-! The family of the packet (spec/41_packet.md): the layout of `packet(ts)`, its checksum byte in closed form,
PKTRD, and the sequence by which a host fetches the packet. -/

namespace Sys2Proof.Machine

open Sys2Proof.Stated

/-! ### The layout of the packet -/

@[simp] theorem take_packet (T : Table) (ts : Word32) : (packet T ts).take 63 = packetBody ts :=
  List.take_left' (length_packetBody ts)

/-- Below its last offset the packet is its body (R100). -/
theorem getElem?_packet_of_lt (T : Table) (ts : Word32) {i : Nat} (h : i < 63) :
    (packet T ts)[i]? = (packetBody ts)[i]? :=
  List.getElem?_append_left h

/-- The checksum byte stands last (R100). -/
theorem getElem?_packet_last (T : Table) (ts : Word32) :
    (packet T ts)[63]? = some (crc8 T (packetBody ts) 0x00#8) :=
  List.getElem?_concat_length

/-- The 57 reserved bytes of the body (R100). -/
theorem getElem?_packetBody_reserved (ts : Word32) {i : Nat} (hlo : 6 ≤ i) (hhi : i ≤ 62) :
    (packetBody ts)[i]? = some 0x00#8 := by
  obtain ⟨k, rfl⟩ := Nat.exists_eq_add_of_le' hlo
  exact (List.getElem?_replicate_of_lt (by omega) : (List.replicate 57 0x00#8)[k]? = some 0x00#8)

/-- Settles O14: the body's bytes stand at their offsets, and the byte behind them is the checksum of the body. -/
theorem packetHasTheFixedLayout : Obligations.PacketHasTheFixedLayout := by
  refine fun T ts => ⟨rfl, rfl, rfl, rfl, rfl, rfl, rfl, fun i hlo hhi => ?_, ?_⟩
  · rw [getElem?_packet_of_lt T ts (Nat.lt_succ_of_le hhi), getElem?_packetBody_reserved ts hlo hhi]
  · rw [getElem?_packet_last, take_packet]

/-! ### The checksum byte in closed form -/

/-- Six unfolded updates, then the table once per reserved byte (R102). -/
theorem crc8_packetBody (T : Table) (ts : Word32) :
    crc8 T (packetBody ts) 0x00#8 = T^[57]
      (T (T (T (T (T (T 0x01#8 ^^^ 0x03#8) ^^^ ts.extractLsb' 24 8) ^^^ ts.extractLsb' 16 8) ^^^
        ts.extractLsb' 8 8) ^^^ ts.extractLsb' 0 8)) := by
  simp only [packetBody, stampBytes, List.cons_append, List.nil_append, crc8_cons, crc8_zeros, upd_eq,
    BitVec.zero_xor, reportId, commandId]

/-- The two ids, then the table once per zero byte (R103). -/
theorem crc8_ids_zeros (T : Table) (n : Nat) :
    crc8 T ([0x01#8, 0x03#8] ++ List.replicate n 0x00#8) 0x00#8 = T^[n] (T (T 0x01#8 ^^^ 0x03#8)) := by
  simp only [List.cons_append, List.nil_append, crc8_cons, crc8_zeros, upd_eq, BitVec.zero_xor]

/-- The four bytes of the timestamp 0 join the reserved bytes (R103). -/
theorem packetBody_zero : packetBody 0#32 = [0x01#8, 0x03#8] ++ List.replicate 61 0x00#8 := rfl

/-- Settles O15: six updates unfold, and every zero byte behind them applies the table once. -/
theorem checksumByteInClosedForm : Obligations.ChecksumByteInClosedForm := by
  refine fun T => ⟨fun ts => ?_, crc8_ids_zeros T 61, ?_⟩
  · rw [getElem?_packet_last, crc8_packetBody]
  · rw [getElem?_packet_last, packetBody_zero, crc8_ids_zeros]

/-! ### PKTRD -/

theorem exec_pktrd_built (off : Offset) {s : State} (h : s.pktv = true) :
    exec (.pktrd off) s = .next (answered (s.pkt.read off) s) := if_pos h

theorem exec_pktrd_unbuilt (off : Offset) {s : State} (h : s.pktv = false) :
    exec (.pktrd off) s = .next (erred 0x04#8 s) := if_neg (Bool.eq_false_iff.mp h)

/-- The reserved bits imm[31:6] of PKTRD (R61). -/
theorem reservedBitSet_pktrd {imm : Word32} (h : imm.extractLsb' 6 26 ≠ 0#26) : reservedBitSet 0x11#8 imm := by
  rw [Ne, extract_high_eq_zero imm 6 26 (Nat.le_refl 32)] at h
  exact .inr (.inl ⟨rfl, Nat.lt_of_succ_le (Nat.not_lt.mp h)⟩)

/-- Settles O19: PKTV decides between the byte and E_NOPKT, and decoding refuses a reserved bit before that. -/
theorem pktrdReadsOneByte : Obligations.PktrdReadsOneByte := by
  refine ⟨fun off _ => exec_pktrd_built off, fun off _ => exec_pktrd_unbuilt off, fun off s => ?_, fun imm s h => ?_⟩
  · have hoff : (0#26 ++ off : Word32) = off.setWidth 32 := (BitVec.setWidth_eq_append (by decide)).symm
    rw [hoff]
    exact stepOn_encode (.pktrd off) s
  · exact stepOn_of_reservedBitSet (by decide) (reservedBitSet_pktrd h) s

/-! ### Fetching the packet -/

/-- From a state with a built packet, PKTRD after PKTRD answers the bytes read and changes nothing else. -/
theorem steps_pktrds (offs : List Offset) {s : State} (h : s.pktv = true) :
    steps offs.length (facing (offs.map .pktrd) s) =
      .next { s with rsp := s.rsp ++ (offs.map s.pkt.read).map okRsp } := by
  induction offs generalizing s with
  | nil =>
    rw [List.map_nil, List.map_nil, List.map_nil, List.append_nil]
    rfl
  | cons off offs ih =>
    rw [List.map_cons, List.length_cons, steps_facing_cons (exec_pktrd_built off h),
      ih (s := answered (s.pkt.read off) s) h, List.map_cons, List.map_cons, List.append_cons s.rsp]
    rfl

/-- The 64 reads of a built packet answer the whole buffer in order (R71). -/
theorem steps_pktdump {s : State} (h : s.pktv = true) :
    steps 64 (facing pktdump s) = .next { s with rsp := s.rsp ++ s.pkt.bytes.map okRsp } := by
  have := steps_pktrds (offsetsFrom 0 64) h
  rwa [length_offsetsFrom] at this

theorem exec_pktbuild (ts : Word32) (s : State) :
    exec (.pktbuild ts) s =
      .next ((s.buildPacket Config.crcTable ts).complete (s.buildPacket Config.crcTable ts).acc) := by
  simp only [exec, execPktbuild]

/-- Settles O20: PKTBUILD answers the checksum byte and leaves `packet(ts)` in PKT, which the reads answer. -/
theorem pktdumpReturnsThePacket : Obligations.PktdumpReturnsThePacket := by
  intro ts s hwf
  have hbytes := bytes_buildPacket Config.crcTable ts hwf
  refine ⟨_, (steps_facing_cons (exec_pktbuild ts s) pktdump 64).trans (steps_pktdump rfl), ?_, hbytes, rfl, rfl⟩
  simp only [State.complete_rsp, State.complete_pkt, State.buildPacket_rsp, hbytes, acc_buildPacket _ ts hwf,
    take_packet]
  rfl

end Sys2Proof.Machine
end

section
/-! The family of the time (spec/42_time.md): the hour transform, HOUR12, and the timestamp and packet of a civil
time. -/

namespace Sys2Proof.Machine

open Sys2Proof.Stated

/-! ### The hour transform -/

@[simp] theorem hour12_false (h : Int) : hour12 false h = h := if_pos rfl

@[simp] theorem hour12_true_zero : hour12 true 0 = 12 := rfl

theorem hour12_true_of_afternoon {h : Int} (hlo : 13 ≤ h) (hhi : h ≤ 23) : hour12 true h = h - 12 := by
  rw [hour12, if_neg Bool.true_eq_false_eq_False, if_neg (by omega), if_pos ⟨hlo, hhi⟩]

theorem hour12_true_of_morning {h : Int} (hlo : 1 ≤ h) (hhi : h ≤ 12) : hour12 true h = h := by
  rw [hour12, if_neg Bool.true_eq_false_eq_False, if_neg (by omega), if_neg (by omega)]

/-- In the 12-hour mode every hour of a day is shown as 1 to 12 (R120). -/
theorem hour12_true_mem_range {h : Int} (hlo : 0 ≤ h) (hhi : h ≤ 23) : 1 ≤ hour12 true h ∧ hour12 true h ≤ 12 := by
  have hcases : h = 0 ∨ (1 ≤ h ∧ h ≤ 12) ∨ 13 ≤ h := by omega
  rcases hcases with rfl | ⟨hone, hnoon⟩ | hafter
  · decide
  · rw [hour12_true_of_morning hone hnoon]
    exact ⟨hone, hnoon⟩
  · rw [hour12_true_of_afternoon hafter hhi]
    omega

/-- Settles O22: the transform's equation on each range of hours, and the range they leave. -/
theorem hourTransformMap : Obligations.HourTransformMap :=
  ⟨hour12_false, hour12_true_zero, fun _ => hour12_true_of_afternoon, fun _ => hour12_true_of_morning,
    fun _ => hour12_true_mem_range⟩

/-! ### HOUR12 -/

theorem exec_hour12_of_le_23 (use12 : Bool) {hour : Byte} (h : hour.toNat ≤ 23) (s : State) :
    exec (.hour12 use12 hour) s = .next (answered (BitVec.ofInt 8 (hour12 use12 hour.toNat)) s) := if_pos h

theorem exec_hour12_above_23 (use12 : Bool) {hour : Byte} (h : 23 < hour.toNat) (s : State) :
    exec (.hour12 use12 hour) s = .next (erred 0x03#8 s) := if_neg (Nat.not_le.mpr h)

/-- An hour the transform keeps is answered as it stands in the operand. -/
theorem exec_hour12_of_fixed {use12 : Bool} {hour : Byte} (h : hour.toNat ≤ 23)
    (hfixed : hour12 use12 hour.toNat = hour.toNat) (s : State) :
    exec (.hour12 use12 hour) s = .next (answered hour s) := by
  rw [exec_hour12_of_le_23 use12 h, hfixed, BitVec.ofInt_natCast, BitVec.ofNat_toNat, BitVec.setWidth_eq]

/-- An hour of the afternoon is answered twelve less. -/
theorem exec_hour12_of_afternoon {hour : Byte} (hlo : 13 ≤ hour.toNat) (hhi : hour.toNat ≤ 23) (s : State) :
    exec (.hour12 true hour) s = .next (answered (hour - 12#8) s) := by
  have hbyte : BitVec.ofInt 8 (hour.toNat - 12) = hour - 12#8 := by
    rw [show ((hour.toNat : Int) - 12) = ((hour.toNat - 12 : Nat) : Int) by omega, BitVec.ofInt_natCast]
    bv_omega
  rw [exec_hour12_of_le_23 true hhi, hour12_true_of_afternoon (by omega) (by omega), hbyte]

/-- The reserved bits imm[31:9] of HOUR12 (R61). -/
theorem reservedBitSet_hour12 {imm : Word32} (h : imm.extractLsb' 9 23 ≠ 0#23) : reservedBitSet 0x20#8 imm := by
  rw [Ne, extract_high_eq_zero imm 9 23 (Nat.le_refl 32)] at h
  exact .inr (.inr (.inl ⟨rfl, Nat.lt_of_succ_le (Nat.not_lt.mp h)⟩))

theorem stepOn_hour12 (use12 : Bool) (hour : Byte) (s : State) :
    stepOn (0x20#8 ++ (0#23 ++ (BitVec.ofBool use12 ++ hour))) s = exec (.hour12 use12 hour) s := by
  have himm : (0#23 ++ (BitVec.ofBool use12 ++ hour) : Word32) = (BitVec.ofBool use12 ++ hour).setWidth 32 :=
    (BitVec.setWidth_eq_append (by decide)).symm
  rw [himm]
  exact stepOn_encode (.hour12 use12 hour) s

/-- Settles O23: the answer on each range of hours, the word that runs the command, and E_RSVD before it runs. -/
theorem hour12AnswersTheTransformedHour : Obligations.Hour12AnswersTheTransformedHour :=
  ⟨fun _ s h => exec_hour12_of_fixed h (hour12_false _) s,
    fun s => exec_hour12_of_le_23 true (by decide) s,
    fun _ s hlo hhi => exec_hour12_of_fixed (by omega) (hour12_true_of_morning (by omega) (by omega)) s,
    fun _ s hlo hhi => exec_hour12_of_afternoon hlo hhi s,
    fun use12 _ s h => exec_hour12_above_23 use12 h s,
    stepOn_hour12,
    fun _ s h => stepOn_of_reservedBitSet (by decide) (reservedBitSet_hour12 h) s⟩

/-! ### The timestamp and the packet of a civil time -/

/-- The host has a timestamp exactly for valid fields whose displayed time fits in 32 unsigned bits (R126). -/
theorem hostStamp_eq_ite (c : CivilTime) (use12 : Bool) :
    hostStamp c use12 =
      if c.valid = true ∧ 0 ≤ tsUtc8 (c.displayed use12) ∧ tsUtc8 (c.displayed use12) ≤ 4294967295 then
        .ok (BitVec.ofInt 32 (tsUtc8 (c.displayed use12)))
      else .error .clockFailure := by
  by_cases hvalid : c.valid = true
  · by_cases hout : tsUtc8 (c.displayed use12) < 0 ∨ 4294967295 < tsUtc8 (c.displayed use12)
    · rw [hostStamp, if_pos hvalid]
      exact (if_pos hout).trans (if_neg (by omega)).symm
    · rw [hostStamp, if_pos hvalid]
      exact (if_neg hout).trans (if_pos ⟨hvalid, by omega⟩).symm
  · rw [hostStamp, if_neg hvalid, if_neg fun h => hvalid h.1]

/-- A value of 32 unsigned bits is not changed by the word it is put in (R126). -/
theorem toNat_ofInt_of_fits {t : Int} (hlo : 0 ≤ t) (hhi : t ≤ 4294967295) :
    ((BitVec.ofInt 32 t).toNat : Int) = t := by
  rw [BitVec.toNat_ofInt]
  omega

theorem buildPacketAt_of_stamp (T : Table) {c : CivilTime} {use12 : Bool} {ts : Word32}
    (h : hostStamp c use12 = .ok ts) : buildPacketAt T c use12 = .ok (packet T ts) := by
  rw [buildPacketAt, h, Except.map]

theorem buildPacketAt_of_failure (T : Table) {c : CivilTime} {use12 : Bool} {f : HostFailure}
    (h : hostStamp c use12 = .error f) : buildPacketAt T c use12 = .error f := by
  rw [buildPacketAt, h, Except.map]

/-- Settles O26: the range check decides between the untruncated timestamp and ClockFailure, and build_packet
follows it. -/
theorem clockFailureExactlyOutOfRange : Obligations.ClockFailureExactlyOutOfRange := by
  intro T c use12
  refine ⟨fun hfits => ?_, fun hout => ?_⟩
  · have hstamp := (hostStamp_eq_ite c use12).trans (if_pos hfits)
    obtain ⟨-, hlo, hhi⟩ := hfits
    exact ⟨_, toNat_ofInt_of_fits hlo hhi, hstamp, buildPacketAt_of_stamp T hstamp⟩
  · have hstamp := (hostStamp_eq_ite c use12).trans (if_neg hout)
    exact ⟨hstamp, buildPacketAt_of_failure T hstamp⟩

@[simp] theorem CivilTime.displayed_false (c : CivilTime) : c.displayed false = c := by
  rw [CivilTime.displayed, hour12_false]

/-- The four bytes of a word, most significant first, are its base-256 digits (R44). -/
theorem toNat_bytes_bigEndian (ts : Word32) :
    ((ts.extractLsb' 24 8).toNat : Int) * 16777216 + (ts.extractLsb' 16 8).toNat * 65536 +
      (ts.extractLsb' 8 8).toNat * 256 + (ts.extractLsb' 0 8).toNat = ts.toNat := by
  simp only [BitVec.extractLsb'_toNat, Nat.shiftRight_eq_div_pow]
  omega

/-- Settles O27: the packet is that of the untruncated timestamp, whose four bytes stand at offsets 2 to 5. -/
theorem packetOfACivilTimeCarriesItsTimestamp : Obligations.PacketOfACivilTimeCarriesItsTimestamp := by
  intro T c hvalid hlo hhi
  have hstamp := hostStamp_eq_ite c false
  rw [CivilTime.displayed_false, if_pos ⟨hvalid, hlo, hhi⟩] at hstamp
  obtain ⟨-, -, -, h2, h3, h4, h5, -⟩ := packetHasTheFixedLayout T (BitVec.ofInt 32 (tsUtc8 c))
  exact ⟨_, buildPacketAt_of_stamp T hstamp, _, _, _, _, h2, h3, h4, h5,
    (toNat_bytes_bigEndian _).trans (toNat_ofInt_of_fits hlo hhi)⟩

end Sys2Proof.Machine
end

section
/-! The family of the system (spec/43_system.md): NOP, STAT, ERRRD and ERRCLR, the commands that show and clear
what the block reports of itself. -/

namespace Sys2Proof.Machine

open Sys2Proof.Stated

/-! ### Commands without an operand -/

/-- Each command without an operand reserves the whole of `imm` (R61), so a nonzero `imm` is answered with
E_RSVD. -/
theorem stepOn_of_imm_ne_zero {op : Byte} {imm : Word32}
    (hop : op = 0x00#8 ∨ op = 0x03#8 ∨ op = 0x30#8 ∨ op = 0x31#8 ∨ op = 0x32#8) (himm : imm ≠ 0#32) (s : State) :
    stepOn (op ++ imm) s = .next (erred 0x02#8 s) := by
  have hmem : op ∈ opcodes := by
    rcases hop with rfl | rfl | rfl | rfl | rfl <;> decide
  exact stepOn_of_reservedBitSet hmem (.inr (.inr (.inr ⟨hop, himm⟩))) s

/-! ### The meanings -/

theorem exec_nop (s : State) : exec .nop s = .next (answered 0x00#8 s) := rfl

theorem exec_stat (s : State) : exec .stat s = .next (answered s.status s) := rfl

theorem exec_errrd (s : State) : exec .errrd s = .next (answered s.err s) := rfl

theorem exec_errclr (s : State) : exec .errclr s = .next (answered 0x00#8 { s with err := 0x00#8 }) := rfl

/-- A byte made of two flags below six zero bits is the union of the flags' bit values. -/
theorem twoFlagByte_eq_or : ∀ e v : Bool,
    (0#6 ++ (BitVec.ofBool e ++ BitVec.ofBool v) : Byte) =
      (if v then 0x01#8 else 0x00#8) ||| (if e then 0x02#8 else 0x00#8) := by
  decide

/-- STATUS from PKTV and ERR (R24, R26). -/
theorem State.status_eq_or (s : State) :
    s.status = (if s.pktv then 0x01#8 else 0x00#8) ||| (if s.err = 0x00#8 then 0x00#8 else 0x02#8) := by
  simp only [State.status, twoFlagByte_eq_or, State.errf_eq_true_iff, ne_eq, ite_not]

/-! ### The four commands -/

/-- Settles O30: NOP's meaning, on the all-zero word, and E_RSVD for a nonzero operand field. -/
theorem nopChangesNothing : Obligations.NopChangesNothing :=
  ⟨exec_nop, stepOn_encode .nop, fun _ s h => stepOn_of_imm_ne_zero (by decide) h s⟩

/-- Settles O32: STAT's meaning with STATUS spelled out, its word, and E_RSVD for a nonzero operand field. -/
theorem statAnswersTheStatus : Obligations.StatAnswersTheStatus := by
  refine ⟨fun s => ?_, stepOn_encode .stat, fun _ s h => stepOn_of_imm_ne_zero (by decide) h s⟩
  rw [exec_stat, State.status_eq_or]

/-- Settles O33: ERRRD's meaning, on its word, and E_RSVD for a nonzero operand field. -/
theorem errrdReadsTheErrorRegister : Obligations.ErrrdReadsTheErrorRegister :=
  ⟨exec_errrd, stepOn_encode .errrd, fun _ s h => stepOn_of_imm_ne_zero (by decide) h s⟩

/-- Settles O34: ERRCLR's meaning, on its word, and E_RSVD, whose error entry clears nothing, for a nonzero
operand field. -/
theorem errclrClearsTheErrorRegister : Obligations.ErrclrClearsTheErrorRegister :=
  ⟨exec_errclr, stepOn_encode .errclr, fun _ s h => stepOn_of_imm_ne_zero (by decide) h s⟩

end Sys2Proof.Machine
end

section
/-! The family of the exceptions (spec/60_exceptions.md): errors are precise, ERR gates no command, and which
commands can fail on a legal encoding. -/

namespace Sys2Proof.Machine

open Sys2Proof.Stated

/-! ### Precise errors -/

/-- The status byte of a response word (R62). -/
@[simp] theorem status_rspWord (c d : Byte) : (rspWord c d).extractLsb' 8 8 = c :=
  BitVec.extractLsb'_append_eq_left

/-- The word appended to the responses has the status its two bytes say. -/
theorem status_of_append_eq {rs : List RspWord} {c c' d d' : Byte}
    (h : rs ++ [rspWord c d] = rs ++ [rspWord c' d']) : c = c' := by
  have hword : rspWord c d = rspWord c' d' := by simpa using h
  simpa using congrArg (BitVec.extractLsb' 8 8) hword

/-- The response of a command that completes has status 0x00 (R62). -/
theorem rsp_of_completion (i : Instr) (s : State) :
    ((completion s i).1.complete (completion s i).2).rsp = s.rsp ++ [rspWord 0x00#8 (completion s i).2] := by
  rw [State.complete_rsp, completion_rsp, okRsp]

/-- A response with a status other than 0x00 comes from error entry with that code alone (R152). -/
theorem eq_erred_of_status_ne_zero {w : CmdWord} {s t : State} {c d : Byte} (h : runCommand w s = .next t)
    (hrsp : t.rsp = s.rsp ++ [rspWord c d]) (hc : c ≠ 0x00#8) : t = erred c s := by
  rcases runCommand_eq_next h with ⟨i, -, rfl⟩ | ⟨e, rfl, -⟩
  · rw [rsp_of_completion] at hrsp
    exact absurd (status_of_append_eq hrsp).symm hc
  · rw [State.raise_rsp] at hrsp
    rw [← status_of_append_eq hrsp]
    rfl

/-! ### ERR gates no command -/

/-- The statuses the block has answered, oldest first. -/
def State.statuses (s : State) : List Byte := s.rsp.map (fun r => r.extractLsb' 8 8)

theorem State.statuses_complete (d : Byte) (s : State) : (s.complete d).statuses = s.statuses ++ [0x00#8] := by
  simp [State.statuses, okRsp]

theorem State.statuses_raise (e : ErrCode) (s : State) : (s.raise e).statuses = s.statuses ++ [e.code] := by
  simp [State.statuses]

theorem State.statuses_completion (i : Instr) (s : State) : (completion s i).1.statuses = s.statuses := by
  rw [State.statuses, State.statuses, completion_rsp]

/-- Two states that agree on all of R20's tuple but ERR, and have answered the same statuses. -/
structure State.AgreesButErr (s s' : State) : Prop where
  acc : s'.acc = s.acc
  pkt : s'.pkt = s.pkt
  pktv : s'.pktv = s.pktv
  statuses : s'.statuses = s.statuses

theorem State.agreesButErr_withErr (e : Byte) (s : State) : s.AgreesButErr { s with err := e } :=
  ⟨rfl, rfl, rfl, rfl⟩

namespace State.AgreesButErr

variable {s s' : State} (h : s.AgreesButErr s')
include h

/-- Completing keeps the agreement, whatever the two data bytes: STAT and ERRRD answer what ERR holds. -/
theorem complete (d d' : Byte) : (s.complete d).AgreesButErr (s'.complete d') :=
  ⟨h.acc, h.pkt, h.pktv, by rw [statuses_complete, statuses_complete, h.statuses]⟩

theorem raise (e : ErrCode) : (s.raise e).AgreesButErr (s'.raise e) :=
  ⟨h.acc, h.pkt, h.pktv, by rw [statuses_raise, statuses_raise, h.statuses]⟩

/-- What a command writes to ACC, PKT and PKTV before its response is computed without ERR. -/
theorem completion (i : Instr) : (completion s i).1.AgreesButErr (completion s' i).1 := by
  have hstatuses : (Machine.completion s' i).1.statuses = (Machine.completion s i).1.statuses := by
    rw [statuses_completion, statuses_completion, h.statuses]
  cases i with
  | crcinit init => exact ⟨rfl, h.pkt, h.pktv, hstatuses⟩
  | crcupd byte => exact ⟨congrArg (upd Config.crcTable · byte) h.acc, h.pkt, h.pktv, hstatuses⟩
  | pktbuild ts =>
    refine ⟨?_, ?_, rfl, hstatuses⟩
    · simp only [Machine.completion, buildPacket_acc, h.pkt]
    · simp only [Machine.completion, buildPacket_pkt, h.pkt]
  | _ => exact ⟨h.acc, h.pkt, h.pktv, hstatuses⟩

/-- Whether a meaning completes is decided by PKTV, on which the two states agree. -/
theorem exec {i : Instr} {t : State} (ht : exec i s = .next t) :
    ∃ t', exec i s' = .next t' ∧ t.AgreesButErr t' := by
  rcases exec_of_pktv i s.pktv with hx | ⟨e, hx⟩
  · rw [hx s rfl] at ht
    injection ht with ht
    exact ⟨_, hx s' h.pktv, ht ▸ (h.completion i).complete _ _⟩
  · rw [hx s rfl] at ht
    injection ht with ht
    exact ⟨_, hx s' h.pktv, ht ▸ h.raise e⟩

/-- A command word does the same from the two states, up to ERR and the data byte. -/
theorem runCommand {w : CmdWord} {t : State} (ht : runCommand w s = .next t) :
    ∃ t', runCommand w s' = .next t' ∧ t.AgreesButErr t' := by
  cases hd : decode w with
  | ok i =>
    rw [runCommand_ok hd] at ht ⊢
    exact h.exec ht
  | error e =>
    rw [runCommand_error hd] at ht
    injection ht with ht
    exact ⟨_, runCommand_error hd s', ht ▸ h.raise e⟩

end State.AgreesButErr

/-- Settles O37: a status other than 0x00 comes from error entry alone, and a word keeps two states in agreement
on all but ERR. -/
theorem errorsArePreciseAndGateNothing : Obligations.ErrorsArePreciseAndGateNothing := by
  refine ⟨fun w s t c d h => eq_erred_of_status_ne_zero h, fun w s t e h => ?_⟩
  obtain ⟨t', ht', hagree⟩ := (s.agreesButErr_withErr e).runCommand h
  exact ⟨t', ht', hagree.acc, hagree.pkt, hagree.pktv, hagree.statuses⟩

/-! ### Legal encodings -/

/-- A legal HOUR12 has an hour of at most 23 (R64). -/
theorem wellFormed_hour12_iff (use12 : Bool) (hour : Byte) :
    (Instr.hour12 use12 hour).wellFormed = true ↔ hour.toNat ≤ 23 := decide_eq_true_iff

/-- A legal command other than PKTRD completes: the one other check of a meaning is the range of HOUR12's hour,
which its encoding already settles (R151). -/
theorem exec_completes_of_wellFormed {i : Instr} (hwf : i.wellFormed = true) (hi : ∀ off, i ≠ .pktrd off)
    (s : State) : exec i s = .next ((completion s i).1.complete (completion s i).2) := by
  rcases exec_cases i s with hx | ⟨off, hoff, -, -⟩ | ⟨u, hour, rfl, hlt, -⟩
  · exact hx
  · exact absurd hoff (hi off)
  · exact absurd ((wellFormed_hour12_iff u hour).mp hwf) (Nat.not_le.mpr hlt)

/-- Settles O38: every legal command but PKTRD completes, and PKTV decides whether PKTRD does. -/
theorem onlyPktrdFailsOnALegalEncoding : Obligations.OnlyPktrdFailsOnALegalEncoding := by
  refine ⟨fun i s hwf hi => ?_, fun off s => ?_⟩
  · rw [stepOn_encode, exec_completes_of_wellFormed hwf hi]
    exact ⟨_, _, rfl, rsp_of_completion i s⟩
  · rw [stepOn_encode]
    cases hv : s.pktv with
    | true => exact ⟨_, _, exec_pktrd_built off hv, rfl⟩
    | false => exact ⟨_, _, exec_pktrd_unbuilt off hv, rfl⟩

end Sys2Proof.Machine
end

section
/-! The family of reset (spec/70_reset_and_hazards.md): the values reset gives, at power-on and by an event. -/

namespace Sys2Proof.Machine

/-- STATUS is the byte of two flags (R26), so it is 0x00 while there is no error and no packet. -/
theorem State.status_of_no_error_no_packet {s : State} (herr : s.err = 0x00#8) (hpktv : s.pktv = false) :
    s.status = 0x00#8 := by
  have herrf : s.errf = false := Bool.eq_false_iff.mpr fun h => s.errf_eq_true_iff.mp h herr
  rw [State.status, herrf, hpktv]
  rfl

@[simp] theorem State.reset_status : State.reset.status = 0x00#8 :=
  State.status_of_no_error_no_packet rfl rfl

@[simp] theorem State.resetEvent_status (s : State) : s.resetEvent.status = 0x00#8 :=
  State.status_of_no_error_no_packet s.resetEvent_err s.resetEvent_pktv

/-- A presented reset, then everything presented before, as one step. -/
theorem step_reset_cons (s : State) : step { s with input := .reset :: s.input } = .next s.resetEvent :=
  step_reset rfl

/-- Settles O43: the fields at power-on, then the fields a reset event gives; STATUS follows from ERR and PKTV. -/
theorem resetGivesTheStatedValues : Obligations.ResetGivesTheStatedValues := by
  refine ⟨⟨rfl, Memory.read_empty, rfl, rfl, State.reset_status⟩, fun s => ⟨s.resetEvent, step_reset_cons s, ?_⟩⟩
  exact ⟨s.resetEvent_acc, Memory.read_empty, s.resetEvent_pktv, s.resetEvent_err, s.resetEvent_status,
    s.resetEvent_rsp⟩

end Sys2Proof.Machine
end

section
/-! The encoder and the decoder as inverses, the match and mask table, the reserved operand bits, and the words
written out in the spec (spec/30_encoding.md). -/

namespace Sys2Proof

open Sys2Proof.Stated

/-! ### A row's command and its word -/

/-- With no reserved bit set, a row's command is encoded as the row's opcode with that operand field. -/
theorem encode_build {imm : Word32} :
    ∀ row ∈ opcodeRows, imm &&& row.reserved = 0#32 → encode (row.build imm) = cmdWord row.op imm := by
  simp only [opcodeRows, List.forall_mem_cons, List.not_mem_nil, false_imp_iff, implies_true, and_true,
    true_and, and_allOnes_eq_zero, and_reservedByte_eq_zero, and_reservedOffset_eq_zero,
    and_reservedHour_eq_zero, encode]
  refine ⟨?nop, ?crcinit, ?crcupd, ?crcrd, ?pktrd, ?hour12, ?stat, ?errrd, ?errclr⟩
  case nop | crcrd | stat | errrd | errclr =>
    rintro rfl
    rfl
  case crcinit | crcupd =>
    intro h
    rw [setWidth_byteOperand h]
  case pktrd =>
    intro h
    rw [setWidth_offsetOperand h]
  case hour12 =>
    intro h
    rw [setWidth_hourWord h]

/-- Every accepted word is the encoding of the command it decodes to (R61, R63). -/
theorem encode_of_decode {w : CmdWord} {i : Instr} (h : decode w = .ok i) : encode i = w := by
  obtain ⟨row, hrow, hop, hres, rfl⟩ := decode_eq_ok h
  rw [encode_build row hrow hres, hop, cmdWord_fields]

/-- Settles O1: a command's word meets its row's match and gives the operands back, and a row's command is encoded
as the word it was read from. -/
theorem encodeAndDecodeAreInverse : Obligations.EncodeAndDecodeAreInverse :=
  ⟨decode_encode, fun _ _ => encode_of_decode⟩

/-! ### Match and mask -/

/-- The encoding of a row's command has the row's opcode, whatever the operands. -/
theorem opField_encode_build {imm : Word32} :
    ∀ row ∈ opcodeRows, opField (encode (row.build imm)) = row.op := by
  simp [opcodeRows, encode]

/-- A word that matches a row decodes to the row's command (R64). -/
theorem decode_of_matches {row : OpcodeRow} (hrow : row ∈ opcodeRows) {w : CmdWord}
    (h : w &&& row.mask = row.pattern) : decode w = .ok (row.build (immField w)) := by
  rw [← cmdWord_fields w, matches_iff hrow] at h
  obtain ⟨hop, hres⟩ := h
  rw [decode_of_row (hop ▸ find_opcodeRow row hrow), if_pos hres]

/-- A word decodes to a command of a row exactly when it matches the row (R64). -/
theorem matches_iff_decode {row : OpcodeRow} (hrow : row ∈ opcodeRows) (w : CmdWord) :
    w &&& row.mask = row.pattern ↔ ∃ imm, decode w = .ok (row.build imm) := by
  refine ⟨fun h => ⟨_, decode_of_matches hrow h⟩, fun ⟨imm, h⟩ => ?_⟩
  have hop : opField w = row.op := by rw [← encode_of_decode h, opField_encode_build row hrow]
  obtain ⟨row', hrow', hop', hres, -⟩ := decode_eq_ok h
  have hsame : row' = row := by
    have hfind := find_opcodeRow row' hrow'
    rw [hop', hop, find_opcodeRow row hrow] at hfind
    exact (Option.some.inj hfind).symm
  rw [← cmdWord_fields w, matches_iff hrow]
  exact ⟨hop, hsame ▸ hres⟩

theorem byteOperand_surjective : Function.Surjective byteOperand := fun b => ⟨_, byteOperand_setWidth b⟩

theorem offsetOperand_surjective : Function.Surjective offsetOperand := fun off => ⟨_, offsetOperand_setWidth off⟩

/-- The hour of a HOUR12 word is the word's low byte (R61). -/
theorem byteOperand_immField (w : CmdWord) : byteOperand (immField w) = w.extractLsb' 0 8 := by
  refine BitVec.eq_of_getLsbD_eq fun i hi => ?_
  simp [byteOperand, immField, hi]

/-- The hour of a word that decodes to HOUR12. -/
theorem hour_of_decode {w : CmdWord} {u : Bool} {hour : Byte} (h : decode w = .ok (.hour12 u hour)) :
    w.extractLsb' 0 8 = hour := by
  obtain ⟨row, hrow, -, -, hbuild⟩ := decode_eq_ok h
  rw [← byteOperand_immField, (op_of_build_hour12 row hrow hbuild).2]

/-- HOUR12's row, with the hour it must have beside its match to be a legal encoding (R64). -/
theorem matches_hour12_iff (w : CmdWord) :
    (w &&& 0xFFFFFFFE00#40 = 0x2000000000#40 ∧ (w.extractLsb' 0 8).toNat ≤ 23) ↔
      ∃ u h, decode w = .ok (.hour12 u h) ∧ (Instr.hour12 u h).wellFormed = true := by
  have hrow : opcodeRows[6] ∈ opcodeRows := List.getElem_mem _
  constructor
  · rintro ⟨hmatch, hhour⟩
    have hd : decode w = .ok (.hour12 (use12Operand (immField w)) (byteOperand (immField w))) :=
      decode_of_matches hrow hmatch
    rw [byteOperand_immField] at hd
    exact ⟨_, _, hd, decide_eq_true hhour⟩
  · rintro ⟨u, hour, hd, hwf⟩
    have hop : opField w = 0x20#8 := by rw [← encode_of_decode hd]; exact opField_cmdWord _ _
    refine ⟨(matches_iff_decode hrow w).mpr ⟨(BitVec.ofBool u ++ hour).setWidth 32, ?_⟩, ?_⟩
    · rw [hd]
      simp [opcodeRows]
    · rw [hour_of_decode hd]
      exact of_decide_eq_true hwf

/-- Settles O2: each row's match and mask select the words that decode to a command of the row, and every operand
value is some operand field's. -/
theorem matchAndMaskSelectTheCommand : Obligations.MatchAndMaskSelectTheCommand := by
  intro w
  have hrows : ∀ row ∈ opcodeRows, w &&& row.mask = row.pattern ↔ ∃ imm, decode w = .ok (row.build imm) :=
    fun _ hrow => matches_iff_decode hrow w
  simp only [opcodeRows, List.forall_mem_cons, exists_const] at hrows
  obtain ⟨hnop, hcrcinit, hcrcupd, hcrcrd, hpktbuild, hpktrd, -, hstat, herrrd, herrclr, -⟩ := hrows
  exact ⟨hnop,
    hcrcinit.trans (byteOperand_surjective.exists (p := fun b => decode w = .ok (.crcinit b))).symm,
    hcrcupd.trans (byteOperand_surjective.exists (p := fun b => decode w = .ok (.crcupd b))).symm,
    hcrcrd, hpktbuild,
    hpktrd.trans (offsetOperand_surjective.exists (p := fun off => decode w = .ok (.pktrd off))).symm,
    matches_hour12_iff w, hstat, herrrd, herrclr⟩

/-! ### Reserved operand bits -/

/-- Only a defined opcode has reserved operand bits (R67). -/
theorem mem_opcodes_of_reservedBitSet {op : Byte} {imm : Word32} (h : reservedBitSet op imm) : op ∈ opcodes := by
  rcases h with ⟨rfl | rfl, -⟩ | ⟨rfl, -⟩ | ⟨rfl, -⟩ | ⟨rfl | rfl | rfl | rfl | rfl, -⟩ <;> decide

/-- Settles O5: a set reserved bit is answered with E_RSVD, and without one a defined opcode decodes. -/
theorem reservedOperandBitRaisesRsvd : Obligations.ReservedOperandBitRaisesRsvd := by
  refine ⟨fun op imm s h => Machine.stepOn_of_reservedBitSet (mem_opcodes_of_reservedBitSet h) h s,
    fun op imm hop hres => ?_⟩
  obtain ⟨row, hrow, rfl⟩ := (mem_opcodes_iff op).mp hop
  exact ⟨_, decode_of_not_reservedBitSet hrow hres⟩

/-! ### Words written out -/

/-- Settles O3: seven of the words are encodings, one has a reserved opcode and one a reserved operand bit. -/
theorem writtenOutWordsDecode : Obligations.WrittenOutWordsDecode :=
  ⟨decode_encode .nop, decode_encode (.crcinit 0x5A#8), decode_encode (.crcupd 0x41#8),
    decode_encode (.pktbuild 0x65920080#32), decode_encode (.pktrd 63#6), decode_encode (.hour12 true 14#8),
    decode_encode .errclr, decode_of_not_mem_opcodes (op := 0x04#8) 0#32 (by decide),
    decode_of_reservedBitSet (op := 0x11#8) (imm := 0x40#32) (by decide) (by decide)⟩

end Sys2Proof
end

section
/-! Rules of the whole machine: the invariant of R30, the four cases of a step, totality, what a command word can
write, and one response per command. -/

namespace Sys2Proof.Machine

open Sys2Proof.Stated

/-! ### The invariant -/

/-- Settles O44: idling, a reset event, a command that completes and one that raises each keep the invariant. -/
theorem stepKeepsTheStateInvariant : Obligations.StepKeepsTheStateInvariant := fun _ _ h ht => h.step ht

/-- Settles O45: an empty buffer, no error and no packet. -/
theorem resetHasTheStateInvariant : Obligations.ResetHasTheStateInvariant := State.Inv.reset [] []

/-! ### The step -/

/-- Settles O7: the four cases of a step. -/
theorem stepRunsTheDecodedCommand : Obligations.StepRunsTheDecodedCommand := by
  refine ⟨fun w rest s i hin hd => ?_, fun w rest s e hin hd => ?_, fun rest s hin => ?_, fun s => step_idle⟩
  · rw [step_cmd hin, runCommand_ok hd]
  · rw [step_cmd hin, runCommand_error hd]
    rfl
  · rw [step_reset hin]
    rfl

/-- Every command answers a next state, on every state (R65, R152). -/
theorem runCommand_goesOn (w : CmdWord) (s : State) : goesOn (runCommand w s) := by
  rcases runCommand_cases w s with ⟨i, -, hr⟩ | ⟨e, -, -, hr⟩
  · rw [hr]
    rcases exec_cases i s with hx | ⟨-, -, -, hx⟩ | ⟨-, -, -, -, hx⟩ <;> exact ⟨_, hx⟩
  · exact ⟨_, hr⟩

/-- Settles O35: nothing to do, a reset event and a command word each have a next state. -/
theorem everyStepGoesOn : Obligations.EveryStepGoesOn := by
  intro s
  cases hin : s.input with
  | nil => exact ⟨s, step_idle hin⟩
  | cons event rest =>
    cases event with
    | reset => exact ⟨_, step_reset hin⟩
    | cmd w =>
      rw [step_cmd hin]
      exact runCommand_goesOn w _

/-! ### What a command word can write -/

/-- The opcode of a word that decodes is that of the command's encoding. -/
theorem opcode_of_decode {w : CmdWord} {i : Instr} (h : decode w = .ok i) :
    w.extractLsb' 32 8 = opField (encode i) := by
  rw [encode_of_decode h, opField]

/-- A completing command writes ACC only if it is CRCINIT, CRCUPD or PKTBUILD (R21). -/
theorem completion_acc {i : Instr} (h : opField (encode i) ∉ [0x01#8, 0x02#8, 0x10#8]) (s : State) :
    (completion s i).1.acc = s.acc := by
  cases i with
  | crcinit init => exact absurd (by simp [encode]) h
  | crcupd byte => exact absurd (by simp [encode]) h
  | pktbuild ts => exact absurd (by simp [encode]) h
  | _ => rfl

/-- Settles O39: error entry keeps ACC, and so does a completing command with any other opcode. -/
theorem onlyThreeCommandsWriteAcc : Obligations.OnlyThreeCommandsWriteAcc := by
  intro w s t h hacc
  rcases runCommand_eq_next h with ⟨i, hd, rfl⟩ | ⟨e, rfl, -⟩
  · rw [opcode_of_decode hd]
    by_contra hop
    exact hacc ((State.complete_acc _ _).trans (completion_acc hop s))
  · exact absurd (State.raise_acc s e) hacc

/-- A completing command writes PKT and PKTV only if it is PKTBUILD (R24, R42). -/
theorem completion_buffer {i : Instr} (h : opField (encode i) ≠ 0x10#8) (s : State) :
    (completion s i).1.pkt = s.pkt ∧ (completion s i).1.pktv = s.pktv := by
  cases i with
  | pktbuild ts => exact absurd (opField_cmdWord _ _) h
  | _ => exact ⟨rfl, rfl⟩

/-- A word with another opcode than PKTBUILD's leaves the buffer and PKTV as they were. -/
theorem buffer_of_runCommand {w : CmdWord} {s t : State} (h : runCommand w s = .next t)
    (hop : w.extractLsb' 32 8 ≠ 0x10#8) : t.pkt = s.pkt ∧ t.pktv = s.pktv := by
  rcases runCommand_eq_next h with ⟨i, hd, rfl⟩ | ⟨e, rfl, -⟩
  · rw [opcode_of_decode hd] at hop
    exact completion_buffer hop s
  · exact ⟨State.raise_pkt s e, State.raise_pktv s e⟩

/-- Every word with opcode 0x10 is a PKTBUILD: its operand field has no reserved bit (R61). -/
theorem stepOn_pktbuild (ts : Word32) (s : State) : stepOn (0x10#8 ++ ts) s = exec (.pktbuild ts) s :=
  stepOn_encode (.pktbuild ts) s

/-- Settles O40: any other opcode leaves the buffer, and opcode 0x10 is a PKTBUILD, which sets PKTV. -/
theorem onlyPktbuildWritesTheBuffer : Obligations.OnlyPktbuildWritesTheBuffer := by
  refine fun w s t h => ⟨fun hop => ?_, fun hop => ?_⟩
  · obtain ⟨hpkt, hpktv⟩ := buffer_of_runCommand h hop
    exact ⟨fun off => by rw [hpkt], hpkt, hpktv⟩
  · have hw : w = 0x10#8 ++ immField w := by rw [← hop]; exact (cmdWord_fields w).symm
    rw [hw, stepOn_pktbuild, exec_pktbuild] at h
    injection h with h
    rw [← h, State.complete_pktv, State.buildPacket_pktv]

/-! ### One response per command -/

/-- A completed command keeps the events behind it and appends one response (R8). -/
theorem ports_of_runCommand {w : CmdWord} {s t : State} (h : runCommand w s = .next t) :
    t.input = s.input ∧ ∃ r, t.rsp = s.rsp ++ [r] := by
  rcases runCommand_eq_next h with ⟨i, -, rfl⟩ | ⟨e, rfl, -⟩
  · exact ⟨completion_input i s, _, rsp_of_completion i s⟩
  · exact ⟨State.raise_input s e, _, State.raise_rsp s e⟩

/-- One step consumes the next event: a command appends one response, a reset none. -/
theorem step_consumes {s : State} {e : HostEvent} {rest : List HostEvent} (h : s.input = e :: rest) :
    ∃ t new, step s = .next t ∧ t.input = rest ∧ t.rsp = s.rsp ++ new ∧
      new.length = ([e].filter (fun e => e ≠ .reset)).length := by
  cases e with
  | reset => exact ⟨_, [], step_reset h, State.resetEvent_input _, (List.append_nil _).symm, rfl⟩
  | cmd w =>
    obtain ⟨t, ht⟩ := runCommand_goesOn w { s with input := rest }
    obtain ⟨hinput, r, hrsp⟩ := ports_of_runCommand ht
    exact ⟨t, [r], (step_cmd h).trans ht, hinput, hrsp, rfl⟩

/-- As many steps as there are events in front consume exactly these, with one response per command (R8, R181). -/
theorem steps_consume (events : List HostEvent) {rest : List HostEvent} {s : State} (h : s.input = events ++ rest) :
    ∃ t, steps events.length s = .next t ∧ t.input = rest ∧
      ∃ new, t.rsp = s.rsp ++ new ∧ new.length = (events.filter (fun e => e ≠ .reset)).length := by
  induction events generalizing s with
  | nil => exact ⟨s, run_zero s, h, [], (List.append_nil _).symm, rfl⟩
  | cons e events ih =>
    obtain ⟨u, first, hstep, hu, hfirst, hfirstlen⟩ := step_consumes h
    obtain ⟨t, hsteps, ht, later, hlater, hlaterlen⟩ := ih hu
    refine ⟨t, (run_succ events.length hstep).trans hsteps, ht, first ++ later, ?_, ?_⟩
    · rw [hlater, hfirst, List.append_assoc]
    · rw [List.length_append, hfirstlen, hlaterlen, ← List.length_append, ← List.filter_append,
        List.singleton_append]

/-- Settles O42: one step per event of the list. -/
theorem oneResponsePerCommand : Obligations.OneResponsePerCommand :=
  fun events _ => steps_consume events rfl

end Sys2Proof.Machine
end

section
/-! What PKTBUILD leaves, whatever it finds; the stream it interrupts; and the reading of one table entry
(spec/41_packet.md, spec/70_reset_and_hazards.md, spec/20_memory.md). -/

namespace Sys2Proof.Machine

open Sys2Proof.Stated

/-! ### PKTBUILD -/

/-- Settles O16: the state after PKTBUILD by its fields, and the word that runs it. -/
theorem pktbuildBuildsThePacket : Obligations.PktbuildBuildsThePacket := by
  refine ⟨fun ts s => ⟨_, exec_pktbuild ts s, rfl, rfl, rfl, rfl, fun hwf => ?_⟩, stepOn_pktbuild⟩
  have hacc := acc_buildPacket Config.crcTable ts hwf
  refine ⟨bytes_buildPacket _ ts hwf, ?_, ?_, wf_buildPacket _ ts s hwf⟩
  · rw [State.complete_acc, hacc, take_packet, packetSeed]
  · rw [State.complete_pkt, State.complete_acc, hacc, read_buildPacket _ ts hwf, if_pos rfl]

/-- The buffer PKTBUILD leaves does not depend on the state it runs on: it reads alike at every offset. -/
theorem buildPacket_pkt_eq (T : Table) (ts : Word32) {s₁ s₂ : State} (h₁ : s₁.pkt.wf) (h₂ : s₂.pkt.wf) :
    (s₁.buildPacket T ts).pkt = (s₂.buildPacket T ts).pkt :=
  Memory.ext_read (wf_buildPacket T ts s₁ h₁) (wf_buildPacket T ts s₂ h₂) fun off => by
    rw [read_buildPacket T ts h₁, read_buildPacket T ts h₂]

/-- Settles O18: the buffer, the checksum in ACC and PKTV are functions of the timestamp. -/
theorem pktbuildForgetsWhatItFinds : Obligations.PktbuildForgetsWhatItFinds := by
  intro ts s₁ s₂ t₁ t₂ h₁ h₂ ht₁ ht₂
  rw [exec_pktbuild] at ht₁ ht₂
  injection ht₁ with ht₁
  injection ht₂ with ht₂
  simp only [← ht₁, ← ht₂, State.complete_pkt, State.complete_acc, State.complete_pktv, State.buildPacket_pktv,
    acc_buildPacket _ ts h₁, acc_buildPacket _ ts h₂, buildPacket_pkt_eq _ ts h₁ h₂, and_self]

/-- Settles O21: PKTBUILD leaves its checksum in ACC, where CRCRD and CRCUPD find it. -/
theorem pktbuildDestroysAStream : Obligations.PktbuildDestroysAStream := by
  intro ts b s hwf
  refine ⟨_, ((steps_facing_cons (exec_pktbuild ts s) _ 3).trans <| (steps_facing_cons (exec_crcrd _) _ 2).trans <|
    (steps_facing_cons (exec_crcupd b _) _ 1).trans <| (steps_facing_cons (exec_crcrd _) _ 0).trans rfl), ?_, rfl⟩
  simp only [facing, answered, State.complete_rsp, State.complete_acc, State.buildPacket_rsp,
    acc_buildPacket _ ts hwf, List.append_assoc, List.cons_append, List.nil_append]
  rfl

/-! ### One table entry -/

/-- Settles O13: `tablerd a` streams one zero byte behind the seed `a`. -/
theorem tablerdReturnsTheTableEntry : Obligations.TablerdReturnsTheTableEntry := by
  intro a s
  have hentry : crc8 Config.crcTable [0x00#8] a = Config.crcTable a := by rw [crc8_singleton, BitVec.xor_zero]
  have hstream := streamedBytesGiveTheChecksum a [0x00#8] s
  rw [hentry, List.append_assoc] at hstream
  exact hstream

end Sys2Proof.Machine
end

section
/-! Civil time (spec/42_time.md): the integer algorithm as a count of leap days, the range of the timestamp, the
half of the day the 12-hour mode loses, and the packet a host fetches. -/

namespace Sys2Proof.Machine

/-! ### Leap days -/

/-- How many of the years up to `y` are leap years, counted from year 1 (R123). -/
def leapDays (y : Int) : Int := y / 4 - y / 100 + y / 400

theorem leapYear_iff (y : Int) : leapYear y = true ↔ y % 4 = 0 ∧ (y % 100 ≠ 0 ∨ y % 400 = 0) :=
  decide_eq_true_iff

theorem yearLength_eq_leapDays (y : Int) : yearLength y = 365 + leapDays y - leapDays (y - 1) := by
  rw [yearLength, leapDays, leapDays]
  by_cases h : leapYear y = true
  · have hleap := (leapYear_iff y).mp h
    rw [if_pos h]
    omega
  · have hcommon := mt (leapYear_iff y).mpr h
    rw [if_neg h]
    omega

/-- R125's eras and years of an era count 365 days a year and the leap days. -/
theorem days_of_era (y : Int) :
    y / 400 * 146097 + ((y - y / 400 * 400) * 365 + (y - y / 400 * 400) / 4 - (y - y / 400 * 400) / 100) =
      365 * y + leapDays y := by
  rw [leapDays]
  omega

/-- R125's algorithm with the leap days counted: the year begins in March, so January and February belong to the
year before. -/
theorem daysFromCivil_eq_leapDays (y mo d : Int) :
    daysFromCivil y mo d = 365 * (if mo ≤ 2 then y - 1 else y) + leapDays (if mo ≤ 2 then y - 1 else y) +
      (153 * ((mo + 9) % 12) + 2) / 5 + d - 719469 := by
  have h := days_of_era (if mo ≤ 2 then y - 1 else y)
  simp only [daysFromCivil]
  omega

/-! ### Years and months, one after another -/

theorem daysFromCivil_newYear (y : Int) : daysFromCivil y 1 1 = 365 * y + leapDays (y - 1) - 719527 := by
  rw [daysFromCivil_eq_leapDays, if_pos (by decide)]
  omega

theorem daysFromCivil_newYear_succ (y : Int) : daysFromCivil (y + 1) 1 1 = daysFromCivil y 1 1 + yearLength y := by
  rw [daysFromCivil_newYear, daysFromCivil_newYear, yearLength_eq_leapDays, Int.add_sub_cancel]
  omega

/-- The years from 1970 on sum to the first day of a year. -/
theorem daysFromCivil_newYear_eq_sum (n : Nat) : daysFromCivil (1970 + n) 1 1 = daysOfYears n := by
  induction n with
  | zero => rfl
  | succ n ih => rw [daysOfYears, ← ih, ← daysFromCivil_newYear_succ, Nat.cast_succ, Int.add_assoc]

theorem daysInMonth_february (y : Int) : daysInMonth y 2 = yearLength y - 337 := by
  rw [daysInMonth, yearLength, if_pos rfl]
  split <;> rfl

/-- A month begins a month's length after the one before it. -/
theorem daysFromCivil_month_succ (y : Int) {mo : Int} (hlo : 1 ≤ mo) (hhi : mo ≤ 11) :
    daysFromCivil y (mo + 1) 1 = daysFromCivil y mo 1 + daysInMonth y mo := by
  rw [daysFromCivil_eq_leapDays, daysFromCivil_eq_leapDays]
  have hcases : mo = 1 ∨ mo = 2 ∨ 3 ≤ mo := by omega
  rcases hcases with rfl | rfl | h3
  · rw [if_pos (by decide), if_pos (by decide), show daysInMonth y 1 = 31 from rfl]
    omega
  · rw [if_neg (by decide), if_pos (by decide), daysInMonth_february, yearLength_eq_leapDays]
    omega
  · rw [if_neg (by omega), if_neg (by omega)]
    interval_cases mo <;> simp [daysInMonth] <;> omega

/-- The months of a year sum to the first day of a month. -/
theorem daysFromCivil_month_eq_sum (y : Int) {n : Nat} (h : n ≤ 11) :
    daysFromCivil y (n + 1) 1 = daysFromCivil y 1 1 + daysOfMonths y n := by
  induction n with
  | zero => exact (Int.add_zero _).symm
  | succ n ih =>
    rw [Nat.cast_succ, daysFromCivil_month_succ y (by omega) (by omega), ih (by omega), daysOfMonths, Int.add_assoc]

/-- A day is its month's first day and the days before it in the month. -/
theorem daysFromCivil_eq_newYear_add (y : Int) {mo : Int} (d : Int) (hlo : 1 ≤ mo) (hhi : mo ≤ 12) :
    daysFromCivil y mo d = daysFromCivil y 1 1 + daysOfMonths y (mo - 1).toNat + d - 1 := by
  have hday : daysFromCivil y mo d = daysFromCivil y mo 1 + d - 1 := by
    rw [daysFromCivil_eq_leapDays, daysFromCivil_eq_leapDays]
    omega
  have hmonth := daysFromCivil_month_eq_sum y (n := (mo - 1).toNat) (by omega)
  rw [Int.toNat_of_nonneg (by omega), Int.sub_add_cancel] at hmonth
  rw [hday, hmonth]

/-- Settles O24: the algorithm moves on by a year's length each year and by a month's length each month. -/
theorem daysFromCivilIsTheSumOfLengths : Obligations.DaysFromCivilIsTheSumOfLengths := by
  intro y mo d hy hlo hhi
  have hyear := daysFromCivil_newYear_eq_sum (y - 1970).toNat
  rw [Int.toNat_of_nonneg (by omega), add_sub_cancel] at hyear
  rw [daysFromCivil_eq_newYear_add y d hlo hhi, hyear, daysBySummation]

/-! ### The range of the timestamp -/

theorem daysInMonth_pos (y mo : Int) : 0 < daysInMonth y mo := by
  unfold daysInMonth
  split_ifs <;> decide

theorem daysOfMonths_mono (y : Int) : Monotone (daysOfMonths y) :=
  monotone_nat_of_le_succ fun n => Int.le_add_of_nonneg_right (daysInMonth_pos y (n + 1)).le

/-- Twelve months make a year. -/
theorem daysOfMonths_twelve (y : Int) : daysOfMonths y 12 = yearLength y := by
  simp only [daysOfMonths, daysInMonth, yearLength]
  cases leapYear y <;> decide

/-- A day of a year lies before the next year begins. -/
theorem daysFromCivil_mem_year (y : Int) {mo d : Int} (hmo : 1 ≤ mo ∧ mo ≤ 12)
    (hd : 1 ≤ d ∧ d ≤ daysInMonth y mo) :
    daysFromCivil y 1 1 ≤ daysFromCivil y mo d ∧ daysFromCivil y mo d < daysFromCivil (y + 1) 1 1 := by
  obtain ⟨n, rfl⟩ : ∃ n : Nat, mo = n + 1 := ⟨(mo - 1).toNat, by omega⟩
  have hfirst : 0 ≤ daysOfMonths y n := daysOfMonths_mono y (Nat.zero_le n)
  have hlast : daysOfMonths y n + daysInMonth y (n + 1) ≤ yearLength y := by
    rw [← daysOfMonths_twelve]
    exact daysOfMonths_mono y (show n + 1 ≤ 12 by omega)
  rw [daysFromCivil_newYear_succ, daysFromCivil_eq_newYear_add y d hmo.1 hmo.2, Int.add_sub_cancel, Int.toNat_natCast]
  omega

theorem leapDays_mono : Monotone leapDays := by
  intro y z h
  rw [leapDays, leapDays]
  omega

/-- Years begin in order. -/
theorem daysFromCivil_newYear_mono : Monotone (daysFromCivil · 1 1) := by
  intro y z h
  have hleap := leapDays_mono (show y - 1 ≤ z - 1 by omega)
  simp only [daysFromCivil_newYear]
  omega

/-- What valid civil fields are (R123). -/
theorem CivilTime.valid_iff (c : CivilTime) :
    c.valid = true ↔ (1 ≤ c.month ∧ c.month ≤ 12) ∧ (1 ≤ c.day ∧ c.day ≤ daysInMonth c.year c.month) ∧
      (0 ≤ c.hour ∧ c.hour ≤ 23) ∧ (0 ≤ c.minute ∧ c.minute ≤ 59) ∧ 0 ≤ c.second ∧ c.second ≤ 59 := by
  simp only [CivilTime.valid, decide_eq_true_iff, and_assoc]

/-- Settles O25: 1970 begins at day 0 and 2107 at day 50038, years begin in order, and a day lies in its year. -/
theorem timestampsOutside1970To2106DoNotFit : Obligations.TimestampsOutside1970To2106DoNotFit := by
  intro c hvalid
  obtain ⟨hmonth, hday, hhour, hminute, hsecond⟩ := c.valid_iff.mp hvalid
  obtain ⟨hfirst, hnext⟩ := daysFromCivil_mem_year c.year hmonth hday
  rw [tsUtc8, utc8Seconds]
  refine ⟨fun hyear => ?_, fun hyear => ?_⟩
  · have hepoch : daysFromCivil (c.year + 1) 1 1 ≤ 0 :=
      daysFromCivil_newYear_mono (show c.year + 1 ≤ 1970 by omega)
    omega
  · have hend : 50038 ≤ daysFromCivil c.year 1 1 := daysFromCivil_newYear_mono hyear
    omega

/-! ### The half of the day the 12-hour mode loses -/

/-- Twelve hours later the 12-hour mode displays the same hour (R122). -/
theorem hour12_true_add_twelve {h : Int} (hlo : 0 ≤ h) (hhi : h < 12) : hour12 true (h + 12) = hour12 true h := by
  have hcases : h = 0 ∨ 1 ≤ h := by omega
  rcases hcases with rfl | hone
  · rfl
  · rw [hour12_true_of_afternoon (by omega) (by omega), hour12_true_of_morning hone (by omega), Int.add_sub_cancel]

/-- The displayed time is off by the seconds its hour is moved. -/
theorem tsUtc8_displayed (c : CivilTime) (use12 : Bool) :
    tsUtc8 (c.displayed use12) = tsUtc8 c + (hour12 use12 c.hour - c.hour) * 3600 := by
  simp only [tsUtc8, CivilTime.displayed]
  omega

/-- Valid times that are displayed alike have the same packet. -/
theorem buildPacketAt_congr (T : Table) {c e : CivilTime} {use12 : Bool} (hc : c.valid = true) (he : e.valid = true)
    (h : c.displayed use12 = e.displayed use12) : buildPacketAt T c use12 = buildPacketAt T e use12 := by
  simp only [buildPacketAt, hostStamp, hc, he, h]

/-- Settles O28: the two hours are displayed alike, and each range of hours is moved by its own distance. -/
theorem halfOfTheDayIsLost : Obligations.HalfOfTheDayIsLost := by
  intro T c hvalid
  obtain ⟨hmonth, hday, hhour, hminute, hsecond⟩ := c.valid_iff.mp hvalid
  simp only [tsUtc8_displayed]
  refine ⟨fun hlt => ?_, fun hafter => ?_, fun hzero => ?_, fun hlo hhi => ?_⟩
  · refine buildPacketAt_congr T hvalid ((CivilTime.valid_iff _).mpr ⟨hmonth, hday, ?_, hminute, hsecond⟩) ?_
    · dsimp only
      omega
    · simp only [CivilTime.displayed, hour12_true_add_twelve hhour.1 hlt]
  · rw [hour12_true_of_afternoon hafter hhour.2]
    omega
  · rw [hzero, hour12_true_zero]
    rfl
  · rw [hour12_true_of_morning hlo hhi]
    omega

/-! ### The packet a host fetches -/

/-- The data byte of a completed command's response (R62). -/
@[simp] theorem data_okRsp (b : Byte) : (okRsp b).extractLsb' 0 8 = b :=
  BitVec.extractLsb'_append_eq_right

/-- The responses of completed commands carry their bytes to the wire in order (R108). -/
theorem wireBytes_map_okRsp (bs : List Byte) : wireBytes (bs.map okRsp) = bs := by
  simp [wireBytes, dataBytes, Function.comp_def]

/-- Settles O29: with a timestamp the host builds the packet and reads it whole; without one it has no commands. -/
theorem hostFetchesBuildPacket : Obligations.HostFetchesBuildPacket := by
  intro c use12 s hwf
  cases hstamp : hostStamp c use12 with
  | error f =>
    rw [buildPacketAt_of_failure _ hstamp]
    refine ⟨fun _ => (nomatch ·), fun g hg => ?_⟩
    rw [fetchPacket, hstamp, ← Except.error.inj hg]
    rfl
  | ok ts =>
    rw [buildPacketAt_of_stamp _ hstamp]
    refine ⟨fun p hp => ?_, fun _ => (nomatch ·)⟩
    obtain ⟨t, hsteps, hrsp, -⟩ := pktdumpReturnsThePacket ts s hwf
    rw [List.append_assoc] at hrsp
    refine ⟨.pktbuild ts :: pktdump, t, ?_, hsteps, _, _, hrsp, ?_⟩
    · rw [fetchPacket, hstamp]
      rfl
    · rw [← Except.ok.inj hp]
      exact wireBytes_map_okRsp _

end Sys2Proof.Machine
end

section
/-! The assembler's operand ranges and the words it gives (spec/30_encoding.md R70). -/

namespace Sys2Proof

/-- A command word as a number: the opcode above the 32 bits of `imm` (R60). -/
theorem cmdWord_eq_ofNat (op : Byte) {imm : Word32} {n k : Nat} (hn : imm.toNat = n) (hk : op.toNat * 2 ^ 32 + n = k) :
    cmdWord op imm = BitVec.ofNat 40 k := by
  have himm := imm.isLt
  refine BitVec.eq_of_toNat_eq ?_
  rw [cmdWord, BitVec.toNat_append, ← Nat.shiftLeft_add_eq_or_of_lt himm, Nat.shiftLeft_eq, hn, hk,
    BitVec.toNat_ofNat, Nat.mod_eq_of_lt]
  have hop := op.isLt
  omega

end Sys2Proof

namespace Sys2Proof.Machine

/-- An operand in range gives the word it is encoded in, and any other is refused (R70). -/
theorem map_ranged {f : Nat → List CmdWord} {w : CmdWord} {max n : Nat} (hf : n ≤ max → f n = [w]) :
    (ranged (max + 1) n).map f = if n ≤ max then .ok [w] else .error .operandRange := by
  by_cases h : n ≤ max
  · rw [ranged, if_pos (Nat.lt_succ_of_le h), if_pos h, ← hf h]
    rfl
  · rw [ranged, if_neg (mt Nat.le_of_lt_succ h), if_neg h]
    rfl

/-- A byte operand is a number below 256. -/
theorem map_byteArg (f : Byte → List CmdWord) (n : Nat) :
    (byteArg n).map f = (ranged 256 n).map (fun n => f (BitVec.ofNat 8 n)) := by
  rw [byteArg]
  cases ranged 256 n <;> rfl

/-- A number that fits in an operand's width is the value of the operand field `imm`. -/
theorem toNat_setWidth_ofNat {k n : Nat} (hk : k ≤ 32) (hn : n < 2 ^ k) :
    ((BitVec.ofNat k n).setWidth 32).toNat = n := by
  rw [BitVec.toNat_setWidth_of_le hk, BitVec.toNat_ofNat, Nat.mod_eq_of_lt hn]

/-- CRCINIT and CRCUPD: one byte operand in the low bits of `imm`. -/
theorem map_byteArg_encode {command : Byte → Instr} {op : Byte}
    (h : ∀ b, encode (command b) = cmdWord op (b.setWidth 32)) (n : Nat) :
    (byteArg n).map (fun b => [encode (command b)]) =
      if n ≤ 255 then .ok [BitVec.ofNat 40 (op.toNat * 2 ^ 32 + n)] else .error .operandRange := by
  refine (map_byteArg _ n).trans (map_ranged fun hn => ?_)
  rw [h, cmdWord_eq_ofNat _ (toNat_setWidth_ofNat (by decide) (Nat.lt_succ_of_le hn)) rfl]

/-- The operand field of HOUR12 as a number: `use12` above the eight bits of the hour (R61). -/
theorem toNat_hourOperands {u n : Nat} (hu : u ≤ 1) (hn : n ≤ 23) :
    ((BitVec.ofBool (decide (u = 1)) ++ BitVec.ofNat 8 n).setWidth 32).toNat = u * 256 + n := by
  have hbit : (decide (u = 1)).toNat = u := by interval_cases u <;> rfl
  rw [BitVec.toNat_setWidth_of_le (by decide), BitVec.toNat_append, BitVec.toNat_ofBool, hbit,
    ← Nat.shiftLeft_add_eq_or_of_lt (BitVec.isLt _), Nat.shiftLeft_eq, BitVec.toNat_ofNat,
    Nat.mod_eq_of_lt (by omega)]

/-- The two operands of HOUR12: both must be in range. -/
theorem assembleStatement_hour12 (u n : Nat) :
    assembleStatement .hour12 [u, n] =
      if u ≤ 1 ∧ n ≤ 23 then .ok [BitVec.ofNat 40 (0x2000000000 + u * 256 + n)] else .error .operandRange := by
  by_cases hu : u ≤ 1
  · have hmap : assembleStatement .hour12 [u, n] = (ranged (23 + 1) n).map
        (fun h => [encode (.hour12 (decide (u = 1)) (BitVec.ofNat 8 h))]) := by
      rw [assembleStatement, ranged, if_pos (Nat.lt_succ_of_le hu)]
      rfl
    simp only [hu, true_and]
    refine hmap.trans (map_ranged fun hn => ?_)
    rw [encode, cmdWord_eq_ofNat _ (toNat_hourOperands hu hn) (Nat.add_assoc _ _ _).symm]
    rfl
  · rw [assembleStatement, ranged, if_neg (mt Nat.le_of_lt_succ hu), if_neg fun h => hu h.1]
    rfl

/-- Settles O47: an operand above the bound its row shows is refused, and one in range is its field's value. -/
theorem assemblerEncodesOperandsInRange : Obligations.AssemblerEncodesOperandsInRange := by
  refine fun n u => ⟨map_byteArg_encode (command := .crcinit) (fun _ => rfl) n,
    map_byteArg_encode (command := .crcupd) (fun _ => rfl) n, ?pktbuild, ?pktrd, assembleStatement_hour12 u n, ?word⟩
  case pktbuild =>
    refine map_ranged fun hn => ?_
    rw [encode, cmdWord_eq_ofNat _ ((BitVec.toNat_ofNat n 32).trans (Nat.mod_eq_of_lt (Nat.lt_succ_of_le hn))) rfl]
    rfl
  case pktrd =>
    refine map_ranged fun hn => ?_
    rw [encode, cmdWord_eq_ofNat _ (toNat_setWidth_ofNat (by decide) (Nat.lt_succ_of_le hn)) rfl]
    rfl
  case word =>
    rw [show 2 ^ 40 = 1099511627775 + 1 from rfl]
    simp only [Nat.lt_succ_iff]
    exact map_ranged fun _ => rfl

end Sys2Proof.Machine
end

section
/-! The linearity of the optional table generators over exclusive-or (spec/93_implementation_defined.md G3, G4). -/

namespace Sys2Proof.Machine

/-- A map of bytes that is linear over exclusive-or. -/
def XorLinear (f : Byte → Byte) : Prop := ∀ a b, f (a ^^^ b) = f a ^^^ f b

theorem XorLinear.map_zero {f : Byte → Byte} (h : XorLinear f) : f 0x00#8 = 0x00#8 := by
  have hself := h 0x00#8 0x00#8
  rwa [BitVec.xor_self, BitVec.xor_self] at hself

theorem XorLinear.iterate {f : Byte → Byte} (h : XorLinear f) (n : Nat) : XorLinear f^[n] := by
  induction n with
  | zero => exact fun _ _ => rfl
  | succ n ih =>
    intro a b
    simp only [Function.iterate_succ_apply, h a b, ih (f a) (f b)]

/-- A linear shift, with a polynomial subtracted when the bit shifted out is set, is linear. -/
theorem XorLinear.divisionStep {shift : Byte → Byte} (h : XorLinear shift) (P : Byte) (k : Nat) :
    XorLinear fun c => if c.getLsbD k then shift c ^^^ P else shift c := by
  intro a b
  simp only [h a b, BitVec.getLsbD_xor]
  cases a.getLsbD k <;> cases b.getLsbD k
  case false.false => rfl
  case false.true => exact BitVec.xor_assoc _ _ _
  case true.false =>
    show shift a ^^^ shift b ^^^ P = shift a ^^^ P ^^^ shift b
    ac_rfl
  case true.true =>
    show shift a ^^^ shift b = shift a ^^^ P ^^^ (shift b ^^^ P)
    rw [BitVec.xor_comm (shift b) P, BitVec.xor_assoc, ← BitVec.xor_assoc P, BitVec.xor_self, BitVec.zero_xor]

theorem xorLinear_msbStep (P : Byte) : XorLinear (msbStep P) :=
  XorLinear.divisionStep (fun a b => BitVec.shiftLeft_xor_distrib a b 1) P 7

theorem xorLinear_lsbStep (Q : Byte) : XorLinear (lsbStep Q) :=
  XorLinear.divisionStep (fun a b => BitVec.ushiftRight_xor_distrib a b 1) Q 0

/-- Settles O48: each division step is linear, and so are its eight iterations. -/
theorem generatedTablesAreLinear : Obligations.GeneratedTablesAreLinear := by
  intro P a b
  have hmsb : XorLinear (tableMsb P) := (xorLinear_msbStep P).iterate 8
  have hlsb : XorLinear (tableLsb P) := (xorLinear_lsbStep P).iterate 8
  exact ⟨hmsb.map_zero, hmsb a b, hlsb.map_zero, hlsb a b⟩

end Sys2Proof.Machine
end
